-- ==== Sys2Proof/Word.lean ====
section
/-! DEFINITION. The word types of the RBPF core: every ring word, packet word and stream word is one unsigned
32-bit Word (00_scope.md R8, R10; 20_memory.md R83). Bytes appear only inside the checksum (41_checksum.md R202). -/

namespace Sys2Proof

/-- An unsigned 32-bit value (R10). -/
abbrev Word := BitVec 32

/-- One of the four bytes of a Word, as the checksum sees it (R202). -/
abbrev Byte := BitVec 8

end Sys2Proof
end

