-- ==== Sys2Proof/Config.lean ====
section
/-! DEFINITION. What an implementation fixes (00_scope.md R8) and the free values (10_state.md R48; U1, U8, U9 of
93_implementation_defined.md). -/

namespace Sys2Proof

/-- `CSUM_BYTE_ORDER` (R8, R202): the order in which a Word's four bytes enter the checksum. -/
inductive ByteOrder where
  | le
  | be
  deriving DecidableEq, Repr

/-- `CSUM` (R8, R201): the standard Adler-32, or another function of the same type, named by a number and given no
value (log 4). -/
inductive CsumFn where
  | adler32
  | other (k : Nat)
  deriving DecidableEq, Repr

/-- The parameters a model of the core takes as arguments (R8). They are plain data, so that a claim about every
state is a claim about every build (log 1). -/
structure Config where
  /-- `CAP`, the capacity of each ring in words. -/
  cap : Nat
  /-- `N`, the packet length in words, a 32-bit constant (R50; log 3). -/
  packetWords : Word
  /-- `CSUM`. -/
  csum : CsumFn
  /-- `CSUM_BYTE_ORDER`. -/
  byteOrder : ByteOrder
  deriving DecidableEq, Repr

/-- `N` as a number. -/
abbrev Config.N (c : Config) : Nat := c.packetWords.toNat

/-- `PMAX = N - 3`, the payload words a packet can carry (R8). -/
abbrev Config.maxPayload (c : Config) : Nat := c.N - 3

/-- The configurations the core exists in: not `N < 3`, not `CAP = 0`, not `CAP >= 2^32` (R9, R350). -/
abbrev Config.Legal (c : Config) : Prop := 3 ≤ c.N ∧ 1 ≤ c.cap ∧ c.cap < 2 ^ 32

/-- `SENTINEL`, the padding word, hard-wired (R8, R130). -/
def Config.sentinel : Word := 0xDEADBEEF

/-- The build `State.reset` stands for: the spec's defaults `N = 10`, Adler-32 and `LE` (R8), with a `CAP` of 16.
DESIGN CHOICE (log 2): the spec leaves `CAP` open. -/
def Config.default : Config :=
  { cap := 16, packetWords := 10, csum := .adler32, byteOrder := .le }

/-- FREE VALUE (log 5, 7): the Word drawn by the `k`-th read of a place nothing has written (R48, R54). -/
opaque Config.freeWord (k : Nat) : Word

/-- FREE VALUE (log 4): the checksum function named `k`, of which only its type is known (R201). -/
opaque Config.otherCsum (k : Nat) (order : ByteOrder) (ws : List Word) : Word

end Sys2Proof
end

