-- ==== Sys2Proof/Machine/CsumFunction.lean ====
section
/-! DEFINITION. The checksum function (41_checksum.md R200 to R202). -/

namespace Sys2Proof.Machine

/-- `bytes_of(w)` (R202). -/
def bytesOf (order : ByteOrder) (w : Word) : List Byte :=
  match order with
  | .le => [w.extractLsb' 0 8, w.extractLsb' 8 8, w.extractLsb' 16 8, w.extractLsb' 24 8]
  | .be => [w.extractLsb' 24 8, w.extractLsb' 16 8, w.extractLsb' 8 8, w.extractLsb' 0 8]

/-- Adler-32's two sums over a list of bytes, from `a` and `s` (R201). -/
def adlerSums : List Byte → Nat → Nat → Nat × Nat
  | [], a, s => (a, s)
  | x :: bs, a, s => adlerSums bs ((a + x.toNat) % 65521) ((s + (a + x.toNat) % 65521) % 65521)

/-- Adler-32 of a list of bytes: `s` in bits 31..16, `a` in bits 15..0 (R201). -/
def adler32 (bs : List Byte) : Word :=
  match adlerSums bs 1 0 with
  | (a, s) => BitVec.ofNat 32 (s * 65536 + a)

/-- `CSUM` of the build (R8, R201). -/
def checksum (c : Config) (ws : List Word) : Word :=
  match c.csum with
  | .adler32 => adler32 (ws.flatMap (bytesOf c.byteOrder))
  | .other k => Config.otherCsum k c.byteOrder ws

end Sys2Proof.Machine
end

