-- ==== Sys2Proof/Machine/State.lean ====
section
/-! DEFINITION. The state of the core (10_state.md R40): two rings, two packet buffers, the input and the output stream;
beside it the build's configuration (log 1) and the model's own count of draws (log 5). Then the reasons a step gives
no next state, and the state after reset (70_reset_and_hazards.md R360). -/

namespace Sys2Proof.Machine

/-- A storage array of Words (R42, R47): the places written so far, as (index, Word) pairs. An index that is not listed
has never been written and holds no defined value (R48, R54). -/
abbrev Memory := List (Nat × Word)

/-- The one canonical form of a storage array: indexes strictly rising. -/
abbrev Memory.wf (m : Memory) : Prop := List.Pairwise (fun a b => a.1 < b.1) m

/-- A ring buffer (R40, R42): its storage array, the `head` and `tail` indexes and the explicit occupancy `count`. -/
structure Ring where
  mem : Memory
  head : Nat
  tail : Nat
  count : Nat
  deriving DecidableEq, Repr

/-- A ring as reset leaves it (R54, R360): empty, its storage unspecified. -/
def Ring.empty : Ring := { mem := [], head := 0, tail := 0, count := 0 }

/-- The state (R40). -/
structure State where
  /-- The build parameters (R8). No transition changes them (log 1). -/
  cfg : Config
  /-- `RB[0]`, the TX ring. -/
  txRing : Ring
  /-- `RB[1]`, the RX ring. -/
  rxRing : Ring
  /-- `PKT[0]`, TXP. -/
  txp : Memory
  /-- `PKT[1]`, RXP. -/
  rxp : Memory
  /-- `In`: words the host appended and the core has not taken (R49). -/
  input : List Word
  /-- `Out`: every word the core has emitted, oldest first (R49). -/
  output : List Word
  /-- The MODEL's own field (log 5): how many draws have been made. It numbers the free values. -/
  draws : Nat
  deriving DecidableEq, Repr

/-- The core has no fault outcome (R320, R350), so there is no fault reason (log 9). -/
inductive Fault where
  deriving DecidableEq, Repr

/-- The reasons the model gives a state no step. -/
inductive Refusal where
  /-- An instruction without a meaning yet, raised by `exec` alone; none is left. Safe. -/
  | notModelled (mnemonic : String)
  /-- The configuration is illegal (R9, R350), raised by every meaning and every hold. The spec itself asks for this
  refusal. Safe. -/
  | illegalConfig
  /-- Hold (R119, R350): the input stream holds a legal command word but not all its operand words. The processor has
  no step and nothing changes; raised by `step`. Safe (log 8). -/
  | holdIncomplete
  /-- Hold (R119, R350, R372): the input stream is empty, the processor waits for a command word and the run is
  finished. Nothing changes; raised by `step`. Safe (log 8). -/
  | holdIdle
  deriving DecidableEq, Repr

/-- The state after reset of the build `c` (R360): rings empty, packet buffers unwritten, both streams empty. The draw
count 0 is a DESIGN CHOICE (log 5). -/
def State.resetWith (c : Config) : State :=
  { cfg := c, txRing := Ring.empty, rxRing := Ring.empty, txp := [], rxp := [], input := [], output := [], draws := 0 }

/-- The state after reset of the default build (R360; log 2). -/
def State.reset : State := State.resetWith Config.default

end Sys2Proof.Machine
end

