-- ==== Sys2Proof/Machine/Flags.lean ====
section
/-! DEFINITION. The status codes and the flag words of responses (30_encoding.md R115, 10_state.md R41). The core stores no
flag: these words exist only in the response. -/

namespace Sys2Proof.Machine

/-- The status of a response (R115). -/
inductive Status where
  | ok
  | csumMismatch
  | overflow
  | underflow
  | malformedLength
  | illegal
  deriving DecidableEq, Repr

/-- The status word (R114, R115). -/
def statusCode : Status → Word
  | .ok => 0
  | .csumMismatch => 1
  | .overflow => 2
  | .underflow => 3
  | .malformedLength => 4
  | .illegal => 5

/-- The status of a checksum comparison (R220, R230). -/
def matchStatus (isMatch : Bool) : Status := if isMatch then .ok else .csumMismatch

/-- PKT.VERIFY's `ok` word: 1 iff the checksums match (R220). -/
def okFlag (isMatch : Bool) : Word := if isMatch then 1 else 0

/-- PKT.VFYP's `error_flag` word: 0 on match, 1 on mismatch (R230). -/
def errorFlag (isMatch : Bool) : Word := if isMatch then 0 else 1

/-- RX.PARSE's `success_flag` word: 1 on success, 0 on failure (R280). -/
def successFlag (st : Status) : Word := if st = .ok then 1 else 0

end Sys2Proof.Machine
end

