-- ==== Sys2Proof/Syntax.lean ====
section
/-! DEFINITION. The commands of the core, one constructor per row of spec/opcode_table.json (30_encoding.md R116).
A command is its command word together with its operand words (R15, R113). -/

namespace Sys2Proof

/-- The ring a RB.* command names by SEL (R7, R111): 0 is the TX ring, 1 the RX ring. -/
inductive RingSel where
  | tx
  | rx
  deriving DecidableEq, Repr

/-- The packet buffer a PKT.* command names by SEL (R7, R111): 0 is TXP, 1 is RXP. -/
inductive PktSel where
  | txp
  | rxp
  deriving DecidableEq, Repr

/-- A legal command with its operands (R113, R116). -/
inductive Instr where
  /-- RB.APPEND: the words to append, oldest first; CNT is their number (R152). -/
  | rbAppend (b : RingSel) (ws : List Word)
  /-- RB.CONSUME of CNT words (R162). -/
  | rbConsume (b : RingSel) (cnt : BitVec 16)
  /-- RB.OCC (R170). -/
  | rbOcc (b : RingSel)
  /-- RB.FREE (R175). -/
  | rbFree (b : RingSel)
  /-- RB.CLEAR (R180). -/
  | rbClear (b : RingSel)
  /-- PKT.WRITE: packet words 0 to N-1, in order (R250). -/
  | pktWrite (p : PktSel) (ws : List Word)
  /-- PKT.READ (R255). -/
  | pktRead (p : PktSel)
  /-- PKT.CSUM (R210). -/
  | pktCsum (p : PktSel)
  /-- PKT.VERIFY (R220). -/
  | pktVerify (p : PktSel)
  /-- PKT.VFYP (R230). -/
  | pktVfyp (p : PktSel)
  /-- TX.BUILD: its operand word is the packet identifier (R260). -/
  | txBuild (id : Word)
  /-- RX.PARSE (R280). -/
  | rxParse
  /-- CFG (R300). -/
  | cfg
  deriving DecidableEq, Repr

end Sys2Proof
end

