-- ==== Sys2Proof/Machine/Operands.lean ====
section
/-! DEFINITION. The operand forms: the ring or packet buffer that SEL names (30_encoding.md R111), and the width of a
count in a response (R10, R170). -/

namespace Sys2Proof.Machine

/-- `RB[b]` (R7, R111). -/
def State.ring (s : State) : RingSel → Ring
  | .tx => s.txRing
  | .rx => s.rxRing

/-- `RB[b] <- r`. -/
def State.setRing (s : State) (b : RingSel) (r : Ring) : State :=
  match b with
  | .tx => { s with txRing := r }
  | .rx => { s with rxRing := r }

/-- `PKT[p]` (R7, R111). -/
def State.pkt (s : State) : PktSel → Memory
  | .txp => s.txp
  | .rxp => s.rxp

/-- `PKT[p] <- m`. -/
def State.setPkt (s : State) (p : PktSel) (m : Memory) : State :=
  match p with
  | .txp => { s with txp := m }
  | .rxp => { s with rxp := m }

/-- `zext_32` of an unsigned count (R10). -/
def countWord (k : Nat) : Word := BitVec.ofNat 32 k

end Sys2Proof.Machine
end

