-- ==== Sys2Proof/Machine/Ops.lean ====
section
/-! DEFINITION. The named operations over the storage arrays, the rings, the packet buffers and the streams
(00_scope.md R12, R13; 40_ring_buffer.md R151, R153, R154). The core has no exception to take (60_exceptions.md R320): its
one form of report is the response, `State.respond`. -/

namespace Sys2Proof.Machine

/-! ### Storage arrays -/

/-- The Word last written at index `i`, or nothing if none was (R48). -/
def Memory.read : Memory → Nat → Option Word
  | [], _ => none
  | (j, v) :: m, i => if i = j then some v else Memory.read m i

/-- `mem[i] <- w`, keeping the canonical form. -/
def Memory.write : Memory → Nat → Word → Memory
  | [], i, w => [(i, w)]
  | (j, v) :: m, i, w =>
    if i < j then (i, w) :: (j, v) :: m
    else if i = j then (i, w) :: m
    else (j, v) :: Memory.write m i w

/-- Writes the pairs in order. -/
def Memory.writeAll : Memory → List (Nat × Word) → Memory
  | m, [] => m
  | m, (i, w) :: cells => Memory.writeAll (Memory.write m i w) cells

/-- One read: the written Word, or a draw if nothing was written there (R48; log 5). Answers the next draw number. -/
def drawWord (m : Memory) (i k : Nat) : Word × Nat :=
  match Memory.read m i with
  | some w => (w, k)
  | none => (Config.freeWord k, k + 1)

/-- Reads the listed places in order, each read a draw of its own where nothing was written (R48). -/
def drawWords (m : Memory) : List Nat → Nat → List Word × Nat
  | [], k => ([], k)
  | i :: idx, k =>
    match drawWord m i k with
    | (w, k₁) =>
      match drawWords m idx k₁ with
      | (ws, k₂) => (w :: ws, k₂)

/-! ### Rings -/

/-- The slots of a transfer of `k` words from index `start`, wrapping modulo `cap` (R151). -/
def slots (cap start k : Nat) : List Nat := (List.range k).map fun i => (start + i) % cap

/-- `freespace(b) = CAP - RB[b].count` (R44). -/
def Ring.free (cap : Nat) (r : Ring) : Nat := cap - r.count

/-- `contents(b)` (R45): what the slots of the unread words hold, oldest first. -/
def Ring.contents (cap : Nat) (r : Ring) : List (Option Word) :=
  (slots cap r.head r.count).map (Memory.read r.mem)

/-- `ring_append` (R153). -/
def Ring.append (cap : Nat) (r : Ring) (ws : List Word) : Ring :=
  { mem := Memory.writeAll r.mem ((slots cap r.tail ws.length).zip ws)
    head := r.head
    tail := (r.tail + ws.length) % cap
    count := r.count + ws.length }

/-- The words `ring_pop` returns (R154), with the next draw number. -/
def Ring.popWords (cap : Nat) (r : Ring) (k d : Nat) : List Word × Nat :=
  drawWords r.mem (slots cap r.head k) d

/-- The ring after `ring_pop` (R154): its slots are not cleared. -/
def Ring.drop (cap : Nat) (r : Ring) (k : Nat) : Ring :=
  { r with head := (r.head + k) % cap, count := r.count - k }

/-- The ring after RB.CLEAR (R180): its slots are not cleared. -/
def Ring.clear (r : Ring) : Ring := { r with head := 0, tail := 0, count := 0 }

/-! ### Packet buffers -/

/-- `PKT[p][i] <- ws[i]` for the words given, at positions below `n` (R250, R260). -/
def packetWrite (n : Nat) (m : Memory) (ws : List Word) : Memory :=
  Memory.writeAll m ((List.range n).zip ws)

/-- Reads the listed words of `PKT[p]` (R12, R48). -/
def State.readPkt (s : State) (p : PktSel) (idx : List Nat) : List Word × State :=
  match drawWords (s.pkt p) idx s.draws with
  | (ws, k) => (ws, { s with draws := k })

/-- Reads one word of `PKT[p]` (R12, R48). -/
def State.readPktWord (s : State) (p : PktSel) (i : Nat) : Word × State :=
  match drawWord (s.pkt p) i s.draws with
  | (w, k) => (w, { s with draws := k })

/-! ### Streams and commit -/

/-- `respond(status, ws)` (R12): the one way the core reports anything (R320). -/
def State.respond (s : State) (st : Status) (ws : List Word) : State :=
  { s with output := s.output ++ statusCode st :: ws }

/-- The words of one command leave the input stream (R13, R119). -/
def State.takeInput (s : State) (rest : List Word) : State := { s with input := rest }

/-- The commit of a whole command in one step (R13), in a legal configuration; an illegal one is refused (R350). -/
def commit (c : Config) (t : State) : Host.Outcome State Fault Refusal :=
  if c.Legal then .next t else .refused .illegalConfig

/-- No step, for the reason given, in a legal configuration; an illegal one is refused as such (R350). -/
def hold (why : Refusal) (s : State) : Host.Outcome State Fault Refusal :=
  if s.cfg.Legal then .refused why else .refused .illegalConfig

end Sys2Proof.Machine
end

