-- ==== Sys2Proof/Machine/Checksum.lean ====
section
/-! DEFINITION. The checksum commands (41_checksum.md): PKT.CSUM, PKT.VERIFY, PKT.VFYP. None of them reads the length field as
a length (R211). -/

namespace Sys2Proof.Machine

/-- PKT.CSUM (R210). -/
def execPktCsum (p : PktSel) (s : State) : Host.Outcome State Fault Refusal :=
  match s.readPkt p (List.range (s.cfg.N - 1)) with
  | (ws, s₁) =>
    commit s.cfg ((s₁.setPkt p (Memory.write (s₁.pkt p) (s.cfg.N - 1) (checksum s.cfg ws))).respond .ok [])

/-- The comparison of R220 and R230: whether the recomputed checksum of words 0..N-2 equals word N-1, then the
identifier, each word read where the rule's pseudocode reads it (log 6). -/
def State.checkPkt (s : State) (p : PktSel) : Bool × Word × State :=
  match s.readPkt p (List.range (s.cfg.N - 1)) with
  | (ws, s₁) =>
    match s₁.readPktWord p (s.cfg.N - 1) with
    | (last, s₂) =>
      match s₂.readPktWord p 0 with
      | (id, s₃) => (decide (checksum s.cfg ws = last), id, s₃)

/-- PKT.VERIFY (R220). -/
def execPktVerify (p : PktSel) (s : State) : Host.Outcome State Fault Refusal :=
  match s.checkPkt p with
  | (isMatch, id, s₁) => commit s.cfg (s₁.respond (matchStatus isMatch) [id, okFlag isMatch])

/-- PKT.VFYP (R230). -/
def execPktVfyp (p : PktSel) (s : State) : Host.Outcome State Fault Refusal :=
  match s.checkPkt p with
  | (isMatch, id, s₁) => commit s.cfg (s₁.respond (matchStatus isMatch) [id, errorFlag isMatch])

end Sys2Proof.Machine
end

