-- ==== Sys2Proof/Machine/PacketFramer.lean ====
section
/-! DEFINITION. The packet framer (42_packet_framer.md): PKT.WRITE, PKT.READ, TX.BUILD, RX.PARSE, over the packet format of
30_encoding.md R130. -/

namespace Sys2Proof.Machine

/-- PKT.WRITE (R250). A well-formed term carries exactly `N` words (log 11). -/
def execPktWrite (p : PktSel) (ws : List Word) (s : State) : Host.Outcome State Fault Refusal :=
  commit s.cfg ((s.setPkt p (packetWrite s.cfg.N (s.pkt p) ws)).respond .ok [])

/-- PKT.READ (R255). -/
def execPktRead (p : PktSel) (s : State) : Host.Outcome State Fault Refusal :=
  match s.readPkt p (List.range s.cfg.N) with
  | (ws, s₁) => commit s.cfg (s₁.respond .ok ws)

/-- Words 0..N-2 of a constructed packet (R130, R260): the identifier, `L`, the payload, then the sentinel. -/
def packetBody (n : Nat) (id : Word) (payload : List Word) : List Word :=
  id :: countWord payload.length :: (payload ++ List.replicate (n - 3 - payload.length) Config.sentinel)

/-- The whole constructed packet, its checksum in word N-1 (R260, step 6). -/
def buildPacket (c : Config) (id : Word) (payload : List Word) : List Word :=
  packetBody c.N id payload ++ [checksum c (packetBody c.N id payload)]

/-- How many words TX.BUILD takes: `min(RB[0].count, N - 3)` (R260, step 2). -/
def txCount (s : State) : Nat := min s.txRing.count s.cfg.maxPayload

/-- TX.BUILD (R260). -/
def execTxBuild (id : Word) (s : State) : Host.Outcome State Fault Refusal :=
  match s.txRing.popWords s.cfg.cap (txCount s) s.draws with
  | (ws, k) =>
    commit s.cfg ({ s with
      txRing := s.txRing.drop s.cfg.cap (txCount s)
      txp := packetWrite s.cfg.N s.txp (buildPacket s.cfg id ws)
      draws := k }.respond .ok [countWord (txCount s)])

/-- The status of RX.PARSE for a packet whose `N` words are `ps` and a ring with `free` words of room: the checksum, then
the length, then the free space (R280, R281). -/
def rxVerdict (c : Config) (free : Nat) (ps : List Word) : Status :=
  if checksum c (ps.take (c.N - 1)) ≠ ps.getD (c.N - 1) 0 then .csumMismatch
  else if c.maxPayload < (ps.getD 1 0).toNat then .malformedLength
  else if free < (ps.getD 1 0).toNat then .overflow
  else .ok

/-- The payload of a packet, `P[2 .. 2+L-1]` (R130, R280). -/
def rxPayload (ps : List Word) : List Word := (ps.drop 2).take (ps.getD 1 0).toNat

/-- RX.PARSE (R280): the packet is read once; only an `OK` verdict changes the ring. -/
def execRxParse (s : State) : Host.Outcome State Fault Refusal :=
  match s.readPkt .rxp (List.range s.cfg.N) with
  | (ps, s₁) =>
    commit s.cfg (({ s₁ with
      rxRing := if rxVerdict s.cfg (s.rxRing.free s.cfg.cap) ps = .ok
        then s.rxRing.append s.cfg.cap (rxPayload ps) else s.rxRing } : State).respond
      (rxVerdict s.cfg (s.rxRing.free s.cfg.cap) ps)
      [successFlag (rxVerdict s.cfg (s.rxRing.free s.cfg.cap) ps)])

end Sys2Proof.Machine
end

