-- ==== Sys2Proof/Machine/RingBuffer.lean ====
section
/-! DEFINITION. The ring buffer commands (40_ring_buffer.md): RB.APPEND, RB.CONSUME, RB.OCC, RB.FREE, RB.CLEAR. The operand
words are arguments: `step` has taken them from the input stream (00_scope.md R13), whatever the status (R152). -/

namespace Sys2Proof.Machine

/-- RB.APPEND (R152): all the words or none. -/
def execRbAppend (b : RingSel) (ws : List Word) (s : State) : Host.Outcome State Fault Refusal :=
  commit s.cfg (if (s.ring b).free s.cfg.cap < ws.length then s.respond .overflow []
    else (s.setRing b ((s.ring b).append s.cfg.cap ws)).respond .ok [])

/-- RB.CONSUME (R162): all the words asked for or none. -/
def execRbConsume (b : RingSel) (cnt : BitVec 16) (s : State) : Host.Outcome State Fault Refusal :=
  commit s.cfg (if (s.ring b).count < cnt.toNat then s.respond .underflow []
    else match (s.ring b).popWords s.cfg.cap cnt.toNat s.draws with
      | (ws, k) =>
        ({ s with draws := k }.setRing b ((s.ring b).drop s.cfg.cap cnt.toNat)).respond .ok ws)

/-- RB.OCC (R170). -/
def execRbOcc (b : RingSel) (s : State) : Host.Outcome State Fault Refusal :=
  commit s.cfg (s.respond .ok [countWord (s.ring b).count])

/-- RB.FREE (R175). -/
def execRbFree (b : RingSel) (s : State) : Host.Outcome State Fault Refusal :=
  commit s.cfg (s.respond .ok [countWord ((s.ring b).free s.cfg.cap)])

/-- RB.CLEAR (R180). -/
def execRbClear (b : RingSel) (s : State) : Host.Outcome State Fault Refusal :=
  commit s.cfg ((s.setRing b (s.ring b).clear).respond .ok [])

end Sys2Proof.Machine
end

