-- ==== Sys2Proof/WellFormed.lean ====
section
/-! DEFINITION. Which command terms have an encoding, in a core whose packets are `n` words long: RB.APPEND carries at
most 65535 words, because CNT has 16 bits (30_encoding.md R112); PKT.WRITE carries exactly `n` (R113). -/

namespace Sys2Proof

/-- The term is a command the encoding can express (R112, R113). -/
def Instr.wellFormed (n : Nat) : Instr → Bool
  | .rbAppend _ ws => decide (ws.length < 2 ^ 16)
  | .pktWrite _ ws => decide (ws.length = n)
  | .rbConsume _ _ | .rbOcc _ | .rbFree _ | .rbClear _ => true
  | .pktRead _ | .pktCsum _ | .pktVerify _ | .pktVfyp _ => true
  | .txBuild _ | .rxParse | .cfg => true

end Sys2Proof
end

