-- ==== Sys2Proof/Decode.lean ====
section
/-! DEFINITION. The decoder and the encoder of command words (30_encoding.md R110 to R120). The decoder is total on any
list of stream words: it answers a command and the words after it, an illegal command word by name, or that the
stream holds no complete command yet. -/

namespace Sys2Proof

/-! ### The fields of a command word (R110) -/

/-- `OP`, bits 31..28. -/
def opField (cw : Word) : BitVec 4 := cw.extractLsb' 28 4
/-- `RSV1`, bits 27..25. -/
def rsv1Field (cw : Word) : BitVec 3 := cw.extractLsb' 25 3
/-- `SEL`, bit 24. -/
def selField (cw : Word) : Bool := cw.getLsbD 24
/-- `RSV2`, bits 23..16. -/
def rsv2Field (cw : Word) : BitVec 8 := cw.extractLsb' 16 8
/-- `CNT`, bits 15..0. -/
def cntField (cw : Word) : BitVec 16 := cw.extractLsb' 0 16

/-! ### The opcode map (R116) -/

/-- The thirteen opcodes (R116). -/
inductive Opcode where
  | rbAppend | rbConsume | rbOcc | rbFree | rbClear
  | pktWrite | pktRead | pktCsum | pktVerify | pktVfyp
  | txBuild | rxParse | cfg
  deriving DecidableEq, Repr

/-- The opcode's `OP` value (R116). -/
def Opcode.code : Opcode → BitVec 4
  | .rbAppend => 0x1
  | .rbConsume => 0x2
  | .rbOcc => 0x3
  | .rbFree => 0x4
  | .rbClear => 0x5
  | .pktWrite => 0x6
  | .pktRead => 0x7
  | .pktCsum => 0x8
  | .pktVerify => 0x9
  | .pktVfyp => 0xA
  | .txBuild => 0xB
  | .rxParse => 0xC
  | .cfg => 0xD

/-- The opcode of an `OP` field; `0x0`, `0xE` and `0xF` are illegal (R116, R117). -/
def opcodeOf (op : BitVec 4) : Option Opcode :=
  match op.toNat with
  | 0x1 => some .rbAppend
  | 0x2 => some .rbConsume
  | 0x3 => some .rbOcc
  | 0x4 => some .rbFree
  | 0x5 => some .rbClear
  | 0x6 => some .pktWrite
  | 0x7 => some .pktRead
  | 0x8 => some .pktCsum
  | 0x9 => some .pktVerify
  | 0xA => some .pktVfyp
  | 0xB => some .txBuild
  | 0xC => some .rxParse
  | 0xD => some .cfg
  | _ => none

/-- CNT may be non-zero only on RB.APPEND and RB.CONSUME (R117). -/
def Opcode.takesCnt : Opcode → Bool
  | .rbAppend | .rbConsume => true
  | .rbOcc | .rbFree | .rbClear | .pktWrite | .pktRead | .pktCsum | .pktVerify | .pktVfyp => false
  | .txBuild | .rxParse | .cfg => false

/-- SEL may be 1 only on the RB.* and PKT.* commands (R111, R117). -/
def Opcode.takesSel : Opcode → Bool
  | .rbAppend | .rbConsume | .rbOcc | .rbFree | .rbClear => true
  | .pktWrite | .pktRead | .pktCsum | .pktVerify | .pktVfyp => true
  | .txBuild | .rxParse | .cfg => false

/-! ### Legality (R117) -/

/-- The clause of `legal(cw)` that a word fails, the first in the order of R117. The core does not report it: every
illegal word gets the same response (R305). -/
inductive IllegalReason where
  /-- `OP` is `0x0`, `0xE` or `0xF`. -/
  | opcode
  /-- `RSV1` is not 0. -/
  | reserved1
  /-- `RSV2` is not 0. -/
  | reserved2
  /-- `CNT` is not 0 on a command without a count. -/
  | count
  /-- `SEL` is 1 on TX.BUILD, RX.PARSE or CFG. -/
  | select
  deriving DecidableEq, Repr

/-- A legal command word's opcode, SEL and CNT. -/
structure Head where
  op : Opcode
  sel : Bool
  cnt : BitVec 16
  deriving DecidableEq, Repr

/-- What a command word is: legal, with its fields, or illegal, with the reason. -/
inductive HeadResult where
  | legal (h : Head)
  | illegal (why : IllegalReason)
  deriving DecidableEq, Repr

/-- Decodes a command word (R110, R117). -/
def decodeHead (cw : Word) : HeadResult :=
  match opcodeOf (opField cw) with
  | none => .illegal .opcode
  | some op =>
    if rsv1Field cw ≠ 0 then .illegal .reserved1
    else if rsv2Field cw ≠ 0 then .illegal .reserved2
    else if op.takesCnt = false ∧ cntField cw ≠ 0 then .illegal .count
    else if op.takesSel = false ∧ selField cw = true then .illegal .select
    else .legal { op := op, sel := selField cw, cnt := cntField cw }

/-! ### Operand words (R111, R113) -/

/-- The ring SEL names: 0 the TX ring, 1 the RX ring (R111). -/
def ringOfSel (sel : Bool) : RingSel := if sel then .rx else .tx

/-- The packet buffer SEL names: 0 TXP, 1 RXP (R111). -/
def pktOfSel (sel : Bool) : PktSel := if sel then .rxp else .txp

/-- How many operand words follow the command word (R113), in a core with `N = n`. -/
def Head.operandCount (n : Nat) (h : Head) : Nat :=
  match h.op with
  | .rbAppend => h.cnt.toNat
  | .pktWrite => n
  | .txBuild => 1
  | .rbConsume | .rbOcc | .rbFree | .rbClear | .pktRead | .pktCsum | .pktVerify | .pktVfyp => 0
  | .rxParse | .cfg => 0

/-- The command of a head and its operand words (R113, R116). TX.BUILD has exactly one operand word, so its default is
never used. -/
def Head.command (h : Head) (ops : List Word) : Instr :=
  match h.op with
  | .rbAppend => .rbAppend (ringOfSel h.sel) ops
  | .rbConsume => .rbConsume (ringOfSel h.sel) h.cnt
  | .rbOcc => .rbOcc (ringOfSel h.sel)
  | .rbFree => .rbFree (ringOfSel h.sel)
  | .rbClear => .rbClear (ringOfSel h.sel)
  | .pktWrite => .pktWrite (pktOfSel h.sel) ops
  | .pktRead => .pktRead (pktOfSel h.sel)
  | .pktCsum => .pktCsum (pktOfSel h.sel)
  | .pktVerify => .pktVerify (pktOfSel h.sel)
  | .pktVfyp => .pktVfyp (pktOfSel h.sel)
  | .txBuild => .txBuild (ops.headD 0)
  | .rxParse => .rxParse
  | .cfg => .cfg

/-! ### Decoding the stream (R119, R120) -/

/-- What the words of the input stream begin with. -/
inductive Decoded where
  /-- A whole command, and the words after it. -/
  | command (i : Instr) (rest : List Word)
  /-- An illegal command word, and the words after it (R305). -/
  | illegal (why : IllegalReason) (rest : List Word)
  /-- A legal command word whose operand words are not all there yet (R119). -/
  | incomplete
  /-- No word at all (R119). -/
  | idle
  deriving DecidableEq, Repr

/-- Reads one command from the stream words `ws`, in a core with `N = n` (R119). -/
def decode (n : Nat) : List Word → Decoded
  | [] => .idle
  | cw :: ws =>
    match decodeHead cw with
    | .illegal why => .illegal why ws
    | .legal h =>
      if ws.length < h.operandCount n then .incomplete
      else .command (h.command (ws.take (h.operandCount n))) (ws.drop (h.operandCount n))

/-! ### The encoder, from the same tables (R110, R113, R116) -/

/-- The SEL bit that names a ring (R111). -/
def selOfRing : RingSel → Bool
  | .tx => false
  | .rx => true

/-- The SEL bit that names a packet buffer (R111). -/
def selOfPkt : PktSel → Bool
  | .txp => false
  | .rxp => true

/-- The command word of a head: `OP`, three zeros, SEL, eight zeros, CNT (R110). -/
def Head.word (h : Head) : Word :=
  h.op.code ++ 0#3 ++ BitVec.ofBool h.sel ++ 0#8 ++ h.cnt

/-- The head of a command (R110, R111, R112). -/
def Instr.head : Instr → Head
  | .rbAppend b ws => { op := .rbAppend, sel := selOfRing b, cnt := BitVec.ofNat 16 ws.length }
  | .rbConsume b cnt => { op := .rbConsume, sel := selOfRing b, cnt := cnt }
  | .rbOcc b => { op := .rbOcc, sel := selOfRing b, cnt := 0 }
  | .rbFree b => { op := .rbFree, sel := selOfRing b, cnt := 0 }
  | .rbClear b => { op := .rbClear, sel := selOfRing b, cnt := 0 }
  | .pktWrite p _ => { op := .pktWrite, sel := selOfPkt p, cnt := 0 }
  | .pktRead p => { op := .pktRead, sel := selOfPkt p, cnt := 0 }
  | .pktCsum p => { op := .pktCsum, sel := selOfPkt p, cnt := 0 }
  | .pktVerify p => { op := .pktVerify, sel := selOfPkt p, cnt := 0 }
  | .pktVfyp p => { op := .pktVfyp, sel := selOfPkt p, cnt := 0 }
  | .txBuild _ => { op := .txBuild, sel := false, cnt := 0 }
  | .rxParse => { op := .rxParse, sel := false, cnt := 0 }
  | .cfg => { op := .cfg, sel := false, cnt := 0 }

/-- The operand words of a command, in stream order (R113). -/
def Instr.operands : Instr → List Word
  | .rbAppend _ ws => ws
  | .pktWrite _ ws => ws
  | .txBuild id => [id]
  | .rbConsume _ _ | .rbOcc _ | .rbFree _ | .rbClear _ => []
  | .pktRead _ | .pktCsum _ | .pktVerify _ | .pktVfyp _ => []
  | .rxParse | .cfg => []

/-- The words of a command: its command word, then its operand words (R113). -/
def encode (i : Instr) : List Word := i.head.word :: i.operands

/-! ### The match and mask table (R118) -/

/-- One row of R118: a mnemonic's match and mask. -/
structure EncodingRow where
  pattern : Word
  mask : Word
  deriving DecidableEq, Repr

/-- The word belongs to the row iff `(cw & mask) = match` (R118). -/
def EncodingRow.has (r : EncodingRow) (cw : Word) : Bool := decide (cw &&& r.mask = r.pattern)

/-- The row of an opcode (R118). -/
def Opcode.row : Opcode → EncodingRow
  | .rbAppend => ⟨0x10000000, 0xFEFF0000⟩
  | .rbConsume => ⟨0x20000000, 0xFEFF0000⟩
  | .rbOcc => ⟨0x30000000, 0xFEFFFFFF⟩
  | .rbFree => ⟨0x40000000, 0xFEFFFFFF⟩
  | .rbClear => ⟨0x50000000, 0xFEFFFFFF⟩
  | .pktWrite => ⟨0x60000000, 0xFEFFFFFF⟩
  | .pktRead => ⟨0x70000000, 0xFEFFFFFF⟩
  | .pktCsum => ⟨0x80000000, 0xFEFFFFFF⟩
  | .pktVerify => ⟨0x90000000, 0xFEFFFFFF⟩
  | .pktVfyp => ⟨0xA0000000, 0xFEFFFFFF⟩
  | .txBuild => ⟨0xB0000000, 0xFFFFFFFF⟩
  | .rxParse => ⟨0xC0000000, 0xFFFFFFFF⟩
  | .cfg => ⟨0xD0000000, 0xFFFFFFFF⟩

/-! ### The host's reading of one opcode-table row -/

/-- The first `k` stream words of the number `w`, the first word in its least significant 32 bits. -/
def wordsOfNat : Nat → Nat → List Word
  | 0, _ => []
  | k + 1, w => BitVec.ofNat 32 w :: wordsOfNat k (w / 2 ^ 32)

/-- The stream words of an instruction whose low `nbits` bits are `w` and whose other bits are 0: every operand word
the command needs beyond those bits is a zero word. -/
def tableWords (n nbits w : Nat) : List Word :=
  match wordsOfNat ((nbits + 31) / 32) (w % 2 ^ nbits) with
  | [] => []
  | cw :: ws =>
    match decodeHead cw with
    | .illegal _ => cw :: ws
    | .legal h => cw :: (ws ++ List.replicate (h.operandCount n - ws.length) 0)

/-- The instruction the decoder reads from those words, in the default build. -/
def decodeTableWord (nbits w : Nat) : Option Instr :=
  match decode Config.default.N (tableWords Config.default.N nbits w) with
  | .command i _ => some i
  | .illegal _ _ => none
  | .incomplete => none
  | .idle => none

end Sys2Proof
end

