-- ==== Sys2Proof/Machine/System.lean ====
section
/-! DEFINITION. The configuration query and the handling of illegal command words (43_system.md). -/

namespace Sys2Proof.Machine

/-- CFG (R300). -/
def execCfg (s : State) : Host.Outcome State Fault Refusal :=
  commit s.cfg (s.respond .ok [countWord s.cfg.cap, s.cfg.packetWords])

/-- An illegal command word (R305): the response is `ILLEGAL`, whatever the reason, and nothing else happens. -/
def execIllegal (_why : IllegalReason) (s : State) : Host.Outcome State Fault Refusal :=
  commit s.cfg (s.respond .illegal [])

end Sys2Proof.Machine
end

