-- ==== Sys2Proof/Machine/Dispatch.lean ====
section
/-! DEFINITION. The dispatch of a command to its meaning (30_encoding.md R116, R119). -/

namespace Sys2Proof.Machine

def exec (i : Instr) (s : State) : Host.Outcome State Fault Refusal :=
  match i with
  | .rbAppend b ws => Sys2Proof.Machine.execRbAppend b ws s
  | .rbConsume b cnt => Sys2Proof.Machine.execRbConsume b cnt s
  | .rbOcc b => Sys2Proof.Machine.execRbOcc b s
  | .rbFree b => Sys2Proof.Machine.execRbFree b s
  | .rbClear b => Sys2Proof.Machine.execRbClear b s
  | .pktWrite p ws => Sys2Proof.Machine.execPktWrite p ws s
  | .pktRead p => Sys2Proof.Machine.execPktRead p s
  | .pktCsum p => Sys2Proof.Machine.execPktCsum p s
  | .pktVerify p => Sys2Proof.Machine.execPktVerify p s
  | .pktVfyp p => Sys2Proof.Machine.execPktVfyp p s
  | .txBuild id => Sys2Proof.Machine.execTxBuild id s
  | .rxParse => Sys2Proof.Machine.execRxParse s
  | .cfg => Sys2Proof.Machine.execCfg s

end Sys2Proof.Machine
end

