-- ==== Sys2Proof/Machine/Fetch.lean ====
section
/-! DEFINITION. Taking a command from the input stream (30_encoding.md R119), and the two holds (60_exceptions.md R350). -/

namespace Sys2Proof.Machine

/-- What the input stream begins with (R119). -/
def fetch (s : State) : Decoded := decode s.cfg.N s.input

/-- The hold with operand words missing (R119, R350). -/
def stepIncomplete (s : State) : Host.Outcome State Fault Refusal := hold .holdIncomplete s

/-- The hold with no word at all: the run is finished (R350, R372). -/
def stepIdle (s : State) : Host.Outcome State Fault Refusal := hold .holdIdle s

/-- Puts stream words before those the core has not taken yet, so that they are taken next. -/
def placeInput (s : State) (ws : List Word) : State := { s with input := ws ++ s.input }

end Sys2Proof.Machine
end

