-- ==== Sys2Proof/Machine/Step.lean ====
section
/-! DEFINITION. One step of the command processor: one iteration of the decode loop (30_encoding.md R119). -/

namespace Sys2Proof.Machine

/-- Takes one whole command from the input stream and executes it; holds where there is none (R119, R350). -/
def step (s : State) : Host.Outcome State Fault Refusal :=
  match fetch s with
  | .command i rest => exec i (s.takeInput rest)
  | .illegal why rest => execIllegal why (s.takeInput rest)
  | .incomplete => stepIncomplete s
  | .idle => stepIdle s

/-- `s` with the instruction whose low `nbits` bits are `w`, its other bits 0, as the next words of the input stream
(log 13). -/
def State.withFetchWord (s : State) (nbits w : Nat) : State :=
  placeInput s (tableWords s.cfg.N nbits w)

end Sys2Proof.Machine
end

