-- ==== Sys2Proof/Machine/Asm.lean ====
section
/-! DEFINITION. The assembly notation (30_encoding.md R121, R122), over lists of characters. What the grammar leaves open is
fixed in log 18. -/

namespace Sys2Proof.Machine

/-- A line of assembly: a command, or the raw word of `.word` (R121). -/
inductive AsmLine where
  | command (i : Instr)
  | raw (w : Word)
  deriving DecidableEq, Repr

/-- The words a line assembles to (R121, R122). -/
def AsmLine.words : AsmLine → List Word
  | .command i => encode i
  | .raw w => [w]

/-- The characters before the first `c`, and those after it, if there is one. -/
def splitFirst (c : Char) : List Char → List Char × Option (List Char)
  | [] => ([], none)
  | x :: xs =>
    if x = c then ([], some xs)
    else match splitFirst c xs with
      | (front, back) => (x :: front, back)

/-- The pieces between the characters for which `cut` holds. -/
def splitAll (cut : Char → Bool) : List Char → List (List Char)
  | [] => [[]]
  | x :: xs =>
    if cut x then [] :: splitAll cut xs
    else match splitAll cut xs with
      | [] => [[x]]
      | piece :: more => (x :: piece) :: more

/-- The pieces between white space. -/
def fields (cs : List Char) : List (List Char) :=
  (splitAll Char.isWhitespace cs).filter fun piece => !piece.isEmpty

/-- The value of a digit in the given base. -/
def digitValue (base : Nat) (c : Char) : Option Nat :=
  let v := if c.isDigit then c.toNat - 48 else if c.isLower then c.toNat - 87 else 36
  if v < base then some v else none

/-- Whether a string begins with a digit of the given base. -/
def startsWithDigit (base : Nat) : List Char → Bool
  | [] => false
  | c :: _ => (digitValue base c).isSome

/-- The number a digit string stands for. R10 allows `_` as a separator in hexadecimal literals and does not say where
it may stand. DESIGN CHOICE (log 18): one `_` between two digits, nowhere else. -/
def digitsValue (base : Nat) : List Char → Nat → Option Nat
  | [], v => some v
  | c :: cs, v =>
    if base = 16 ∧ c = '_' ∧ startsWithDigit base cs then digitsValue base cs v
    else match digitValue base c with
      | none => none
      | some d => digitsValue base cs (v * base + d)

/-- A decimal or 0x-hexadecimal number (R121). A hexadecimal one begins with a digit, not with `_` (log 18). -/
def numberValue : List Char → Option Nat
  | [] => none
  | '0' :: 'x' :: c :: cs => if startsWithDigit 16 (c :: cs) then digitsValue 16 (c :: cs) 0 else none
  | c :: cs => digitsValue 10 (c :: cs) 0

/-- A number below `bound`, alone between white space. -/
def boundedNumber (bound : Nat) (cs : List Char) : Option Nat :=
  match fields cs with
  | [piece] => match numberValue piece with
    | some v => if v < bound then some v else none
    | none => none
  | _ => none

/-- A comma-separated list of words, each `0 .. 2^32-1` (R121). -/
def wordList : List (List Char) → Option (List Word)
  | [] => some []
  | piece :: more =>
    match boundedNumber (2 ^ 32) piece, wordList more with
    | some v, some ws => some (BitVec.ofNat 32 v :: ws)
    | _, _ => none

/-- The opcode a mnemonic names (R121). -/
def opcodeOfMnemonic (cs : List Char) : Option Opcode :=
  if cs = "rb.append".toList then some .rbAppend
  else if cs = "rb.consume".toList then some .rbConsume
  else if cs = "rb.occ".toList then some .rbOcc
  else if cs = "rb.free".toList then some .rbFree
  else if cs = "rb.clear".toList then some .rbClear
  else if cs = "pkt.write".toList then some .pktWrite
  else if cs = "pkt.read".toList then some .pktRead
  else if cs = "pkt.csum".toList then some .pktCsum
  else if cs = "pkt.verify".toList then some .pktVerify
  else if cs = "pkt.vfyp".toList then some .pktVfyp
  else if cs = "tx.build".toList then some .txBuild
  else if cs = "rx.parse".toList then some .rxParse
  else if cs = "cfg".toList then some .cfg
  else none

/-- The commands that name a ring. -/
def Opcode.namesRing : Opcode → Bool
  | .rbAppend | .rbConsume | .rbOcc | .rbFree | .rbClear => true
  | .pktWrite | .pktRead | .pktCsum | .pktVerify | .pktVfyp | .txBuild | .rxParse | .cfg => false

/-- The SEL bit a line gives: `tx`/`rx` on the RB.* commands, `txp`/`rxp` on the PKT.* commands, nothing on the others
(R121). -/
def selValue (op : Opcode) : Option (List Char) → Option Bool
  | none => if op.takesSel then none else some false
  | some cs =>
    if op.takesSel = false then none
    else if cs = (if Opcode.namesRing op then "tx".toList else "txp".toList) then some false
    else if cs = (if Opcode.namesRing op then "rx".toList else "rxp".toList) then some true
    else none

/-- The CNT field a line gives: present exactly on the commands with a count (R121; log 18). -/
def cntValue (op : Opcode) : Option Nat → Option (BitVec 16)
  | none => if op.takesCnt then none else some 0
  | some v => if op.takesCnt then some (BitVec.ofNat 16 v) else none

/-- The command of a line's parts, in a core with `N = n`: as many operand words as the command takes (R113, R121). -/
def lineCommand (n : Nat) (op : Opcode) (sel : Option (List Char)) (cnt : Option Nat) (ws : List Word) : Option Instr :=
  match selValue op sel, cntValue op cnt with
  | some b, some k =>
    let h : Head := { op := op, sel := b, cnt := k }
    if ws.length = h.operandCount n then some (h.command ws) else none
  | _, _ => none

/-- Reads one line, its letters in lower case, in a core with `N = n` (R121). -/
def parseLower (n : Nat) (line : List Char) : Option AsmLine :=
  match splitFirst ':' line with
  | (front, back) =>
    match splitFirst ',' front with
    | (name, count) =>
      match fields name, count, back with
      | [m, w], none, none =>
        if m = ".word".toList then (boundedNumber (2 ^ 32) w).map fun v => AsmLine.raw (BitVec.ofNat 32 v)
        else match opcodeOfMnemonic m with
          | some op => (lineCommand n op (some w) none []).map AsmLine.command
          | none => none
      | parts, _, _ =>
        match (match count with
            | none => some none
            | some c => (boundedNumber (2 ^ 16) c).map some),
          (match back with
            | none => some []
            | some b => wordList (splitAll (fun x => x == ',') b)) with
        | some cnt, some ws =>
          match parts with
          | [m] => match opcodeOfMnemonic m with
            | some op => (lineCommand n op none cnt ws).map AsmLine.command
            | none => none
          | [m, sel] => match opcodeOfMnemonic m with
            | some op => (lineCommand n op (some sel) cnt ws).map AsmLine.command
            | none => none
          | _ => none
        | _, _ => none

/-- Reads one line; mnemonics are case-insensitive (R121). -/
def parseLine (n : Nat) (line : String) : Option AsmLine := parseLower n (line.toList.map Char.toLower)

/-- The words a line assembles to, in a core with `N = n` (R121). -/
def assemble (n : Nat) (line : String) : Option (List Word) := (parseLine n line).map AsmLine.words

end Sys2Proof.Machine
end

