-- ==== Sys2Proof/Machine/HostPort.lean ====
section
/-! DEFINITION. The host's interactions with the core (70_reset_and_hazards.md R375), and the interleaving of both agents
(00_scope.md R4). -/

namespace Sys2Proof.Machine

/-- The host appends words, legal or not, to the input stream (R4, R49, R375). -/
def hostSend (s : State) (ws : List Word) : State := { s with input := s.input ++ ws }

/-- The words the host gets that has already read `k` words of `Out`; reading changes nothing in the core (R49, R87). -/
def hostRead (s : State) (k : Nat) : List Word := s.output.drop k

/-- Reset, between two commands (R360, R361): the reset state of the same build. The draw count goes on, so that no
draw after reset repeats one before it (log 15). -/
def hostReset (s : State) : State := { State.resetWith s.cfg with draws := s.draws }

/-- What may happen next in the whole system: a step of the core, or an action of the host (R4, R375). -/
inductive Event where
  | core
  | send (ws : List Word)
  | reset
  deriving DecidableEq, Repr

/-- One event (R4): the core's step, where it has one, or the host's action, which is always possible (R375). -/
def react (e : Event) (s : State) : Host.Outcome State Fault Refusal :=
  match e with
  | .core => step s
  | .send ws => .next (hostSend s ws)
  | .reset => .next (hostReset s)

end Sys2Proof.Machine
end

