-- ==== Sys2Proof/Safety.lean ====
section
/-! DEFINITION. The terms claims are stated in: the invariants of the core, what a packet buffer holds, legality of a
command word as arithmetic on the word, the statuses a command may answer, runs and reachable states. -/

namespace Sys2Proof.Machine

/-! ### Invariants -/

/-- A storage array of `size` places: canonical, and no place beyond it written (R80, R82). -/
structure MemoryInv (size : Nat) (m : Memory) : Prop where
  canonical : Memory.wf m
  bounded : ∀ c ∈ m, c.1 < size

/-- The ring invariant (R43), with what the storage array is and that every unread word was written. -/
structure RingInv (cap : Nat) (r : Ring) : Prop where
  mem : MemoryInv cap r.mem
  count_le : r.count ≤ cap
  head_lt : r.head < cap
  tail_lt : r.tail < cap
  tail_eq : r.tail = (r.head + r.count) % cap
  written : none ∉ r.contents cap

/-- The invariant of the core in a legal configuration. -/
structure State.Inv (s : State) : Prop where
  legal : s.cfg.Legal
  ring : ∀ b, RingInv s.cfg.cap (s.ring b)
  pkt : ∀ p, MemoryInv s.cfg.N (s.pkt p)

/-! ### What storage holds -/

/-- `ws` is a reading of the places `idx`: a written place reads as its Word, any other as any Word (R48). -/
def Reads (m : Memory) (idx : List Nat) (ws : List Word) : Prop :=
  List.Forall₂ (fun i w => ∀ v, Memory.read m i = some v → w = v) idx ws

/-- The first `ws.length` places hold exactly `ws`. -/
def Holds (m : Memory) (ws : List Word) : Prop := ∀ i < ws.length, Memory.read m i = ws[i]?

/-- `PKT[p]` is wholly written and holds the packet `ps` (R47). -/
def State.PktHolds (s : State) (p : PktSel) (ps : List Word) : Prop := ps.length = s.cfg.N ∧ Holds (s.pkt p) ps

/-- A packet is valid: its recomputed checksum equals its last word (R15, R130). -/
abbrev validPacket (c : Config) (ps : List Word) : Prop := checksum c (ps.take (c.N - 1)) = ps.getD (c.N - 1) 0

/-- The payload length field of a packet, `L` (R130, R131). -/
abbrev packetLength (ps : List Word) : Nat := (ps.getD 1 0).toNat

/-! ### Command words as numbers (R110, R113, R117) -/

/-- `OP`. -/
abbrev opNumber (cw : Word) : Nat := cw.toNat / 2 ^ 28

/-- `CNT`. -/
abbrev cntNumber (cw : Word) : Nat := cw.toNat % 2 ^ 16

/-- `legal(cw)` (R117), read off the number. -/
def LegalWord (cw : Word) : Prop :=
  (1 ≤ opNumber cw ∧ opNumber cw ≤ 13) ∧
  cw.toNat / 2 ^ 25 % 8 = 0 ∧
  cw.toNat / 2 ^ 16 % 256 = 0 ∧
  (opNumber cw ≤ 2 ∨ cntNumber cw = 0) ∧
  (opNumber cw ≤ 10 ∨ cw.toNat / 2 ^ 24 % 2 = 0)

/-- The number of operand words of R113's table. -/
def operandWords (n : Nat) (cw : Word) : Nat :=
  if opNumber cw = 1 then cntNumber cw else if opNumber cw = 6 then n else if opNumber cw = 11 then 1 else 0

/-! ### Responses (R114 to R116) -/

/-- The statuses R116 gives each legal command. -/
def mayAnswer : Instr → List Status
  | .rbAppend _ _ => [.ok, .overflow]
  | .rbConsume _ _ => [.ok, .underflow]
  | .pktVerify _ | .pktVfyp _ => [.ok, .csumMismatch]
  | .rxParse => [.ok, .csumMismatch, .malformedLength, .overflow]
  | .rbOcc _ | .rbFree _ | .rbClear _ | .pktWrite _ _ | .pktRead _ | .pktCsum _ | .txBuild _ | .cfg => [.ok]

/-- The number of result words R116 gives each command and status, in a core with `N = n`. -/
def resultWords (n : Nat) (i : Instr) (st : Status) : Nat :=
  match i with
  | .rbConsume _ cnt => if st = .ok then cnt.toNat else 0
  | .rbAppend _ _ | .rbClear _ | .pktWrite _ _ | .pktCsum _ => 0
  | .rbOcc _ | .rbFree _ | .txBuild _ | .rxParse => 1
  | .pktVerify _ | .pktVfyp _ | .cfg => 2
  | .pktRead _ => n

/-! ### Runs -/

/-- Executes commands one after the other (R88). -/
def execAll : List Instr → State → Host.Outcome State Fault Refusal
  | [], s => .next s
  | i :: is, s =>
    match exec i s with
    | .next t => execAll is t
    | .fault r => .fault r
    | .refused r => .refused r

/-- A run is finished: the input stream is empty and the processor waits for a command word (R372). -/
def Finished (s : State) : Prop := s.input = [] ∧ step s = .refused .holdIdle

/-- The states the whole system can be in, from reset, in the build `c` (R4, R375). -/
inductive Reachable (c : Config) : State → Prop where
  | reset : Reachable c (State.resetWith c)
  | event {s t : State} (e : Event) : Reachable c s → react e s = .next t → Reachable c t

/-! ### The words that pass through a ring (R185) -/

/-- The words a command puts into ring `b`: those of an RB.APPEND that fits, and the payload of the packet `PKT[1]`
holds when an RX.PARSE answers `OK`. -/
def accepted (b : RingSel) (i : Instr) (s t : State) : List Word :=
  match i with
  | .rbAppend b' ws => if b' = b ∧ t.output = s.output ++ [statusCode .ok] then ws else []
  | .rxParse =>
    if b = .rx ∧ t.output = s.output ++ [statusCode .ok, 1] then
      rxPayload (drawWords s.rxp (List.range s.cfg.N) s.draws).1
    else []
  | .rbConsume _ _ | .rbOcc _ | .rbFree _ | .rbClear _ | .pktWrite _ _ | .pktRead _ | .pktCsum _ | .pktVerify _
  | .pktVfyp _ | .txBuild _ | .cfg => []

/-- The words a command takes out of ring `b`: the result words of an RB.CONSUME, and the payload words a TX.BUILD
puts into `PKT[0]`. -/
def removed (b : RingSel) (i : Instr) (s t : State) : List Word :=
  match i with
  | .rbConsume b' _ => if b' = b then t.output.drop (s.output.length + 1) else []
  | .txBuild _ =>
    if b = .tx then (List.range (t.output.getLastD 0).toNat).map fun j => (Memory.read t.txp (2 + j)).getD 0 else []
  | .rbAppend _ _ | .rbOcc _ | .rbFree _ | .rbClear _ | .pktWrite _ _ | .pktRead _ | .pktCsum _ | .pktVerify _
  | .pktVfyp _ | .rxParse | .cfg => []

/-- The commands of a run put `ins` into ring `b` and took `outs` out of it, in order, none of them clearing it. -/
inductive RingTrace (b : RingSel) : List Instr → State → State → List Word → List Word → Prop where
  | done (s : State) : RingTrace b [] s s [] []
  | command {i : Instr} {is : List Instr} {s t u : State} {ins outs : List Word} :
      i ≠ .rbClear b → exec i s = .next t → RingTrace b is t u ins outs →
      RingTrace b (i :: is) s u (accepted b i s t ++ ins) (removed b i s t ++ outs)

/-! ### What two states may differ in without a host seeing it (R46) -/

/-- The states agree on all a host can learn of: the contents of both rings, the packet buffers, both streams. The
build and the number of the next draw are the same. -/
structure SameToHost (s t : State) : Prop where
  cfg : s.cfg = t.cfg
  contents : ∀ b, (s.ring b).contents s.cfg.cap = (t.ring b).contents t.cfg.cap
  pkt : ∀ p, s.pkt p = t.pkt p
  input : s.input = t.input
  output : s.output = t.output
  draws : s.draws = t.draws

end Sys2Proof.Machine
end

