-- ==== Sys2Proof/Certificates/Slice0/Obligations.lean ====
section
/-! DEFINITION. The statements for the provers. Each docstring names the rules of spec/ it formalises. -/

open Sys2Proof Sys2Proof.Machine

/-! ### Decoding and encoding -/

/-- One step is one iteration of the decode loop: a whole command is executed on the state without its words, an
illegal word is answered with ILLEGAL, and an incomplete or empty stream is a hold with no step (R119, R350). -/
def Obligations.StepFollowsDecodeLoop : Prop :=
  ∀ s : State,
    (∀ i rest, decode s.cfg.N s.input = .command i rest → step s = exec i { s with input := rest }) ∧
    (∀ why rest, s.cfg.Legal → decode s.cfg.N s.input = .illegal why rest →
      step s = .next { s with input := rest, output := s.output ++ [5] }) ∧
    (s.cfg.Legal → decode s.cfg.N s.input = .incomplete → step s = .refused .holdIncomplete) ∧
    (s.cfg.Legal → s.input = [] → step s = .refused .holdIdle)

/-- In an illegal configuration nothing has a meaning (R9, R350). That a step answers so even where `In` is empty or
holds an incomplete command, before the hold, is the model's choice (log 10): the spec does not order the two. -/
def Obligations.IllegalConfigurationRefused : Prop :=
  ∀ (i : Instr) (s : State), ¬ s.cfg.Legal →
    step s = .refused .illegalConfig ∧ exec i s = .refused .illegalConfig

/-- Every word in command position that is not `legal(cw)` takes only itself from `In` and answers ILLEGAL
(R305, R117). -/
def Obligations.IllegalWordAnswersIllegal : Prop :=
  ∀ (s : State) (cw : Word) (rest : List Word), s.cfg.Legal → s.input = cw :: rest → ¬ LegalWord cw →
    step s = .next { s with input := rest, output := s.output ++ [5] }

/-- A word is legal iff it matches exactly one row of the match and mask table, and the row it matches is the one of
the command it decodes to. The table is the spec's own inference (R118, "derived: from rule R110 and rule R117"). -/
def Obligations.LegalWordMatchesOneRow : Prop :=
  ∀ cw : Word,
    (LegalWord cw ↔ ∃ op : Opcode, op.row.has cw = true ∧ ∀ op' : Opcode, op'.row.has cw = true → op' = op) ∧
    ∀ op : Opcode, op.row.has cw = true ↔ ∃ h : Head, decodeHead cw = .legal h ∧ h.op = op

/-- The number of operand words is fixed by OP and CNT alone, and they are the words right after the command word, in
order; an illegal word has none (R113). -/
def Obligations.OperandCountRule : Prop :=
  ∀ (n : Nat) (cw : Word) (ws : List Word),
    (LegalWord cw → ws.length < operandWords n cw → decode n (cw :: ws) = .incomplete) ∧
    (LegalWord cw → operandWords n cw ≤ ws.length →
      ∃ i : Instr, decode n (cw :: ws) = .command i (ws.drop (operandWords n cw)) ∧
        i.operands = ws.take (operandWords n cw)) ∧
    (¬ LegalWord cw → ∃ why, decode n (cw :: ws) = .illegal why ws)

/-- Decoding an encoded well-formed command, with any words after it, gives the command and those words
(R110 to R113, R116). -/
def Obligations.DecodeEncodeRoundTrip : Prop :=
  ∀ (n : Nat) (i : Instr) (rest : List Word), i.wellFormed n = true →
    decode n (encode i ++ rest) = .command i rest

/-- Whatever decodes to a command is that well-formed command's encoding, bit for bit (R110, R117). -/
def Obligations.DecodedCommandIsItsEncoding : Prop :=
  ∀ (n : Nat) (ws rest : List Word) (i : Instr), decode n ws = .command i rest →
    i.wellFormed n = true ∧ ws = encode i ++ rest

/-- Words written out from the spec's encodings (R110, R116, and the examples of R121). -/
def Obligations.SampleWordsDecode : Prop :=
  decode 10 [0x10000003, 1, 2, 3] = .command (.rbAppend .tx [1, 2, 3]) [] ∧
  decode 10 [0x21000002] = .command (.rbConsume .rx 2) [] ∧
  decode 10 [0x41000000] = .command (.rbFree .rx) [] ∧
  decode 10 [0x81000000] = .command (.pktCsum .rxp) [] ∧
  decode 10 [0xB0000000, 0xBEEF] = .command (.txBuild 0xBEEF) [] ∧
  decode 10 [0xC0000000] = .command .rxParse [] ∧
  decode 10 [0xD0000000] = .command .cfg []

/-- The next command starts right after a command's operand words, whatever its status, and right after an illegal
word (R120). -/
def Obligations.NextCommandStartsAfterOperands : Prop :=
  ∀ (s : State) (rest : List Word), s.cfg.Legal →
    (∀ i : Instr, i.wellFormed s.cfg.N = true → s.input = encode i ++ rest →
      ∃ t, step s = .next t ∧ t.input = rest) ∧
    (∀ cw : Word, ¬ LegalWord cw → s.input = cw :: rest → ∃ t, step s = .next t ∧ t.input = rest)

/-- Commands are executed in the order of their words, each to completion before the next; when the last is done the
run is finished (R88, R372). -/
def Obligations.CommandSequenceRunsInOrder : Prop :=
  ∀ (is : List Instr) (s : State), s.cfg.Legal → (∀ i ∈ is, i.wellFormed s.cfg.N = true) →
    s.input = is.flatMap encode →
    ∃ t, Host.Core.run core is.length s = .next t ∧ Finished t ∧
      execAll is { s with input := [] } = .next t

/-! ### Reset and invariants -/

/-- Reset leaves empty rings with zero indexes, unwritten packet buffers and empty streams, the processor waiting for a
command word, and the first words after it are decoded as a command; the host's reset leads to that state of the same
build, whatever draws follow (R360). -/
def Obligations.ResetLeavesEmptyCore : Prop :=
  (∀ (c : Config) (b : RingSel) (p : PktSel),
    ((State.resetWith c).ring b).head = 0 ∧ ((State.resetWith c).ring b).tail = 0 ∧
    ((State.resetWith c).ring b).count = 0 ∧ (∀ i, Memory.read ((State.resetWith c).pkt p) i = none) ∧
    (State.resetWith c).input = [] ∧ (State.resetWith c).output = [] ∧ (State.resetWith c).cfg = c ∧
    (c.Legal → step (State.resetWith c) = .refused .holdIdle)) ∧
  (∀ (c : Config) (i : Instr) (rest : List Word), i.wellFormed c.N = true →
    step (hostSend (State.resetWith c) (encode i ++ rest)) = exec i { State.resetWith c with input := rest }) ∧
  ∀ s : State, ∃ d : Nat, hostReset s = { State.resetWith s.cfg with draws := d }

/-- The invariant holds after reset, in every legal build. -/
def Obligations.ResetMeetsTheInvariant : Prop :=
  ∀ c : Config, c.Legal → (State.resetWith c).Inv

/-- Every step of the core keeps the invariant: legal build, ring invariant, canonical storage within its bounds. -/
def Obligations.StepKeepsTheInvariant : Prop :=
  ∀ s t : State, s.Inv → step s = .next t → t.Inv

/-- The ring invariant holds in every reachable state, whatever the host sends and whenever it resets the core (R43,
R44). Its third bullet is the spec's own inference (R43, "derived: from 40_ring_buffer.md rules R153 and R154"). -/
def Obligations.ReachableRingsMeetTheRingInvariant : Prop :=
  ∀ (c : Config) (s : State), c.Legal → Reachable c s → ∀ b : RingSel,
    (s.ring b).count ≤ c.cap ∧ (s.ring b).head < c.cap ∧ (s.ring b).tail < c.cap ∧
    (s.ring b).tail = ((s.ring b).head + (s.ring b).count) % c.cap ∧
    (s.ring b).free c.cap + (s.ring b).count = c.cap

/-- No event changes the configuration parameters (R8, R40). -/
def Obligations.ConfigurationNeverChanges : Prop :=
  ∀ (e : Event) (s t : State), react e s = .next t → t.cfg = s.cfg

/-! ### Responses and failures -/

/-- Every command answers a next state in every legal configuration, and adds exactly one response to `Out`: one of the
statuses R116 gives it, then as many result words as R116 gives that status; an illegal command word adds the status
ILLEGAL alone (R114). -/
def Obligations.EveryCommandAnswersOneResponse : Prop :=
  ∀ s : State, s.cfg.Legal →
    (∀ i : Instr, i.wellFormed s.cfg.N = true →
      ∃ (t : State) (st : Status) (ws : List Word), exec i s = .next t ∧
        t.output = s.output ++ statusCode st :: ws ∧ st ∈ mayAnswer i ∧ ws.length = resultWords s.cfg.N i st) ∧
    (∀ (cw : Word) (rest : List Word), ¬ LegalWord cw → s.input = cw :: rest →
      ∃ t : State, step s = .next t ∧ t.output = s.output ++ [statusCode .illegal])

/-- The status codes (R115). -/
def Obligations.StatusCodesAreTheTable : Prop :=
  statusCode .ok = 0 ∧ statusCode .csumMismatch = 1 ∧ statusCode .overflow = 2 ∧ statusCode .underflow = 3 ∧
  statusCode .malformedLength = 4 ∧ statusCode .illegal = 5

/-- A command whose status is not OK leaves all buffers as they were (R86, R321). The draw count is the model's own
(log 5). -/
def Obligations.FailedCommandChangesNothing : Prop :=
  ∀ (i : Instr) (s t : State) (st : Status) (ws : List Word), exec i s = .next t → st ≠ .ok →
    t.output = s.output ++ statusCode st :: ws →
    t = { s with output := t.output, draws := t.draws }

/-- The queries leave everything but `Out` as it was; over written packets, and where they read none, they make no draw
(the spec's own inference R87, "derived: from 10_state.md rule R53"). -/
def Obligations.QueriesChangeNothing : Prop :=
  ∀ (s t : State) (b : RingSel) (p : PktSel) (i : Instr), exec i s = .next t →
    (i ∈ [.rbOcc b, .rbFree b, .cfg] → t = { s with output := t.output }) ∧
    (i ∈ [.pktRead p, .pktVerify p, .pktVfyp p] → t = { s with output := t.output, draws := t.draws } ∧
      ((∃ ps, s.PktHolds p ps) → t.draws = s.draws))

/-- Repeating a query gives the same response, a written packet being the one queried where it is a packet (the spec's
own inference R87, "derived: from 10_state.md rule R53"). -/
def Obligations.QueriesRepeatTheirResponse : Prop :=
  ∀ (s t : State) (b : RingSel) (p : PktSel) (i : Instr) (ps out : List Word),
    (i ∈ [.rbOcc b, .rbFree b, .cfg] ∨ i ∈ [.pktRead p, .pktVerify p, .pktVfyp p] ∧ s.PktHolds p ps) →
    exec i s = .next t → t.output = s.output ++ out →
    exec i t = .next { t with output := t.output ++ out }

/-! ### Ring buffer commands -/

/-- RB.APPEND: a request within the free space is appended whole, at the slots from `tail` on, and every other slot,
index and buffer is as before; a larger one answers OVERFLOW and changes nothing (R152, R153). Its words are those the
rule gives. -/
def Obligations.AppendIsAllOrNothing : Prop :=
  ∀ (s : State) (b : RingSel) (ws : List Word), s.cfg.Legal → RingInv s.cfg.cap (s.ring b) →
    (ws.length < 2 ^ 16 → encode (.rbAppend b ws) =
      BitVec.ofNat 32 ((if b = .tx then 0x10000000 else 0x11000000) + ws.length) :: ws) ∧
    (ws.length ≤ (s.ring b).free s.cfg.cap →
      ∃ m : Memory,
        exec (.rbAppend b ws) s = .next { s.setRing b
          { mem := m, head := (s.ring b).head, tail := ((s.ring b).tail + ws.length) % s.cfg.cap,
            count := (s.ring b).count + ws.length } with output := s.output ++ [0] } ∧
        (∀ j < ws.length, Memory.read m (((s.ring b).tail + j) % s.cfg.cap) = ws[j]?) ∧
        (∀ k, (∀ j < ws.length, k ≠ ((s.ring b).tail + j) % s.cfg.cap) →
          Memory.read m k = Memory.read (s.ring b).mem k)) ∧
    ((s.ring b).free s.cfg.cap < ws.length →
      exec (.rbAppend b ws) s = .next { s with output := s.output ++ [2] })

/-- A successful append adds the words at the end of the contents and overwrites no unread word (R153). -/
def Obligations.AppendExtendsTheContents : Prop :=
  ∀ (s t : State) (b : RingSel) (ws : List Word), s.cfg.Legal → RingInv s.cfg.cap (s.ring b) →
    ws.length ≤ (s.ring b).free s.cfg.cap → exec (.rbAppend b ws) s = .next t →
    (t.ring b).contents s.cfg.cap = (s.ring b).contents s.cfg.cap ++ ws.map some

/-- RB.CONSUME: a request within the occupancy returns the oldest words and removes them, leaving the storage as it
was; a larger one answers UNDERFLOW and changes nothing (R162, R154). Its words are those the rule gives. -/
def Obligations.ConsumeReturnsTheOldestWords : Prop :=
  ∀ (s : State) (b : RingSel) (cnt : BitVec 16), s.cfg.Legal → RingInv s.cfg.cap (s.ring b) →
    encode (.rbConsume b cnt) =
      [BitVec.ofNat 32 ((if b = .tx then 0x20000000 else 0x21000000) + cnt.toNat)] ∧
    (cnt.toNat ≤ (s.ring b).count →
      ∃ (ws : List Word) (r : Ring),
        exec (.rbConsume b cnt) s = .next { s.setRing b r with output := s.output ++ 0 :: ws } ∧
        r = { (s.ring b) with
          head := ((s.ring b).head + cnt.toNat) % s.cfg.cap, count := (s.ring b).count - cnt.toNat } ∧
        ws.length = cnt.toNat ∧
        (s.ring b).contents s.cfg.cap = ws.map some ++ r.contents s.cfg.cap) ∧
    ((s.ring b).count < cnt.toNat →
      exec (.rbConsume b cnt) s = .next { s with output := s.output ++ [3] })

/-- RB.OCC and RB.FREE report the occupancy and the free space, which add up to CAP (R170, R175, R44). Their words are
those the rules give. -/
def Obligations.OccupancyAndFreeSpaceAreReported : Prop :=
  ∀ (s : State) (b : RingSel), s.cfg.Legal → RingInv s.cfg.cap (s.ring b) →
    encode (.rbOcc b) = [if b = .tx then 0x30000000 else 0x31000000] ∧
    encode (.rbFree b) = [if b = .tx then 0x40000000 else 0x41000000] ∧
    ∃ occ free : Word,
      exec (.rbOcc b) s = .next { s with output := s.output ++ [0, occ] } ∧
      exec (.rbFree b) s = .next { s with output := s.output ++ [0, free] } ∧
      occ.toNat = (s.ring b).count ∧ free.toNat = s.cfg.cap - (s.ring b).count ∧
      occ.toNat + free.toNat = s.cfg.cap

/-- RB.CLEAR empties its ring, its storage kept, and changes nothing else (R180). Its words are those the rule gives.
-/
def Obligations.ClearEmptiesTheRing : Prop :=
  ∀ (s : State) (b : RingSel), s.cfg.Legal →
    encode (.rbClear b) = [if b = .tx then 0x50000000 else 0x51000000] ∧
    ∃ r : Ring, exec (.rbClear b) s = .next { s.setRing b r with output := s.output ++ [0] } ∧
      r.head = 0 ∧ r.tail = 0 ∧ r.count = 0 ∧ r.mem = (s.ring b).mem ∧ r.contents s.cfg.cap = []

/-- A ring command writes only its own ring and `Out`, and neither its response nor the ring it leaves depends on
anything else but the build (R150). -/
def Obligations.RingCommandsTouchOnlyTheirRing : Prop :=
  ∀ (s s' t t' : State) (b : RingSel) (ws : List Word) (cnt : BitVec 16) (i : Instr),
    i ∈ [.rbAppend b ws, .rbConsume b cnt, .rbOcc b, .rbFree b, .rbClear b] →
    RingInv s.cfg.cap (s.ring b) → s.cfg = s'.cfg → s.ring b = s'.ring b →
    exec i s = .next t → exec i s' = .next t' →
    t = { s.setRing b (t.ring b) with output := t.output } ∧
    t.ring b = t'.ring b ∧ ∃ out, t.output = s.output ++ out ∧ t'.output = s'.output ++ out

/-- Slot `j` of a transfer is its start plus `j` modulo CAP; the slots of a transfer that crosses the capacity boundary
are the end of the storage and then its start, and no slot lies outside the storage (R151). -/
def Obligations.WraparoundIsTwoContiguousCopies : Prop :=
  ∀ cap start k : Nat, start < cap → k ≤ cap →
    (∀ j < k, (slots cap start k)[j]? = some ((start + j) % cap)) ∧
    (start + k ≤ cap → slots cap start k = List.range' start k) ∧
    (cap < start + k → slots cap start k = List.range' start (cap - start) ++ List.range' 0 (start + k - cap)) ∧
    ∀ i ∈ slots cap start k, i < cap

/-- Conservation: after every command both rings satisfy `occupancy + freespace = CAP`; a successful append or consume
moves the occupancy by exactly its count, and a failed one leaves the ring as it was (the spec's own inference R186,
"derived: from rule R152, rule R162 and 10_state.md rule R43"). -/
def Obligations.OccupancyIsConserved : Prop :=
  ∀ (i : Instr) (s t : State), s.Inv → exec i s = .next t → ∀ b : RingSel,
    (t.ring b).count + (t.ring b).free s.cfg.cap = s.cfg.cap ∧
    (∀ ws, i = .rbAppend b ws →
      (t.output = s.output ++ [0] → (t.ring b).count = (s.ring b).count + ws.length) ∧
      (t.output ≠ s.output ++ [0] → t.ring b = s.ring b)) ∧
    (∀ cnt, i = .rbConsume b cnt →
      ((∃ ws, t.output = s.output ++ 0 :: ws) → (t.ring b).count + cnt.toNat = (s.ring b).count) ∧
      ((¬ ∃ ws, t.output = s.output ++ 0 :: ws) → t.ring b = s.ring b))

/-- FIFO: over any sequence of commands that does not clear ring `b`, what was in the ring and what was put into it is
what was taken out of it and what is left in it, in that order; from an empty ring, the words taken out are the first
of the words put in (the spec's own inference R185, "derived: from rule R153 and rule R154"). -/
def Obligations.RingsAreFirstInFirstOut : Prop :=
  ∀ (b : RingSel) (is : List Instr) (s t : State) (ins outs : List Word), s.Inv → RingTrace b is s t ins outs →
    (s.ring b).contents s.cfg.cap ++ ins.map some = outs.map some ++ (t.ring b).contents t.cfg.cap ∧
    ((s.ring b).count = 0 → outs <+: ins)

/-- Abstraction: two states that agree on the contents of both rings, the packet buffers and the streams give the same
responses to every sequence of commands, whatever their indexes and unused slots, the draws being the same (the spec's
own inference R46, "derived: from 40_ring_buffer.md rules R150 to R186 and 42_packet_framer.md rules R250 to R291"). -/
def Obligations.IndexesAreUnobservable : Prop :=
  ∀ (k : Nat) (s t : State), s.Inv → t.Inv → SameToHost s t →
    (∃ s' t', Host.Core.run core k s = .next s' ∧ Host.Core.run core k t = .next t' ∧ SameToHost s' t') ∨
    (∃ r, Host.Core.run core k s = .refused r ∧ Host.Core.run core k t = .refused r)

/-! ### Checksum commands -/

/-- Both sums of Adler-32 stay below 65521, so neither half of a checksum reaches `0xFFF1` (R201). -/
def Obligations.AdlerHalvesStayBelowTheModulus : Prop :=
  ∀ (c : Config) (ws : List Word), c.csum = .adler32 →
    (checksum c ws).toNat / 65536 < 65521 ∧ (checksum c ws).toNat % 65536 < 65521

/-- What the default checksum detects, R203: every change of exactly one byte, which moves the low sum by the byte's
change; a change within one word goes undetected iff the byte changes sum to 0 and their weighted sum is 0 modulo
65521; the two examples are such changes, under either byte order (the spec's own inference, "derived: from rule R201"). -/
def Obligations.DefaultChecksumDetection : Prop :=
  ∀ (c : Config) (ws : List Word) (i : Nat) (w w' : Word), c.csum = .adler32 → ws[i]? = some w →
    (∀ (j : Nat) (x x' : Byte), (bytesOf c.byteOrder w)[j]? = some x → x ≠ x' →
      bytesOf c.byteOrder w' = (bytesOf c.byteOrder w).set j x' →
      checksum c (ws.set i w') ≠ checksum c ws ∧
      ((checksum c (ws.set i w')).toNat % 65536 : Int) ≡
        (checksum c ws).toNat % 65536 + ((x'.toNat : Int) - x.toNat) [ZMOD 65521]) ∧
    (∀ d0 d1 d2 d3 : Int,
      (bytesOf c.byteOrder w').map (fun x => (x.toNat : Int)) =
        List.zipWith (· + ·) ((bytesOf c.byteOrder w).map (fun x => (x.toNat : Int))) [d0, d1, d2, d3] →
      (checksum c (ws.set i w') = checksum c ws ↔
        d0 + d1 + d2 + d3 = 0 ∧ (1 * d1 + 2 * d2 + 3 * d3) % 65521 = 0)) ∧
    checksum c (ws.set i 0x00000200) = checksum c (ws.set i 0x00010001) ∧
    checksum c (ws.set i 0x7F80807F) = checksum c (ws.set i 0x807F7F80)

/-- PKT.CSUM stores the checksum of words 0 to N-2 in word N-1 and changes no other word; an unwritten word enters as
any value (R210, R48). Its words are those the rule gives. -/
def Obligations.CsumWritesTheLastWord : Prop :=
  ∀ (s : State) (p : PktSel), s.cfg.Legal →
    encode (.pktCsum p) = [if p = .txp then 0x80000000 else 0x81000000] ∧
    ∃ (ws : List Word) (m : Memory) (d : Nat),
      exec (.pktCsum p) s = .next { s.setPkt p m with output := s.output ++ [0], draws := d } ∧
      Reads (s.pkt p) (List.range (s.cfg.N - 1)) ws ∧
      Memory.read m (s.cfg.N - 1) = some (checksum s.cfg ws) ∧
      ∀ i, i ≠ s.cfg.N - 1 → Memory.read m i = Memory.read (s.pkt p) i

/-- PKT.VERIFY of a written packet answers the identifier with `ok`, 1 iff the packet is valid, and changes nothing; of
any packet it does so for some reading of it, each unwritten word being any value at each read (R220, R322). Its words
are those the rule gives. -/
def Obligations.VerifyReportsValidity : Prop :=
  ∀ (s : State) (p : PktSel), s.cfg.Legal →
    encode (.pktVerify p) = [if p = .txp then 0x90000000 else 0x91000000] ∧
    (∀ ps : List Word, s.PktHolds p ps →
      exec (.pktVerify p) s = .next { s with output := s.output ++
        (if validPacket s.cfg ps then [0, ps.getD 0 0, 1] else [1, ps.getD 0 0, 0]) }) ∧
    ∃ (ws : List Word) (last id : Word) (d : Nat),
      Reads (s.pkt p) (List.range (s.cfg.N - 1)) ws ∧ Reads (s.pkt p) [s.cfg.N - 1, 0] [last, id] ∧
      exec (.pktVerify p) s = .next { s with
        output := s.output ++ (if checksum s.cfg ws = last then [0, id, 1] else [1, id, 0]), draws := d }

/-- PKT.VFYP of a written packet answers the identifier with `error_flag`, 0 iff the packet is valid, and changes
nothing; of any packet it does so for some reading of it, each unwritten word being any value at each read (R230,
R322). Its words are those the rule gives. -/
def Obligations.VfypReportsTheErrorFlag : Prop :=
  ∀ (s : State) (p : PktSel), s.cfg.Legal →
    encode (.pktVfyp p) = [if p = .txp then 0xA0000000 else 0xA1000000] ∧
    (∀ ps : List Word, s.PktHolds p ps →
      exec (.pktVfyp p) s = .next { s with output := s.output ++
        (if validPacket s.cfg ps then [0, ps.getD 0 0, 0] else [1, ps.getD 0 0, 1]) }) ∧
    ∃ (ws : List Word) (last id : Word) (d : Nat),
      Reads (s.pkt p) (List.range (s.cfg.N - 1)) ws ∧ Reads (s.pkt p) [s.cfg.N - 1, 0] [last, id] ∧
      exec (.pktVfyp p) s = .next { s with
        output := s.output ++ (if checksum s.cfg ws = last then [0, id, 0] else [1, id, 1]), draws := d }

/-- Round trip: PKT.CSUM of a packet whose words 0 to N-2 are written, then PKT.VERIFY or PKT.VFYP of it, answers OK
with its identifier, for every CSUM (the spec's own inference R235, "derived: from rule R210 and rule R220"). -/
def Obligations.CsumThenVerifyIsOk : Prop :=
  ∀ (s : State) (p : PktSel) (ws : List Word), s.cfg.Legal → ws.length = s.cfg.N - 1 → Holds (s.pkt p) ws →
    ∃ t, exec (.pktCsum p) s = .next t ∧
      exec (.pktVerify p) t = .next { t with output := t.output ++ [0, ws.getD 0 0, 1] } ∧
      exec (.pktVfyp p) t = .next { t with output := t.output ++ [0, ws.getD 0 0, 0] }

/-- PKT.CSUM of a written packet, and PKT.WRITE, applied twice leave the state of applying them once, but for the
second response (R210 for PKT.CSUM; for PKT.WRITE the spec's own inference R87, "derived: from 10_state.md rule
R53"). -/
def Obligations.PacketWritesAreIdempotent : Prop :=
  ∀ (s t u : State) (p : PktSel) (i : Instr) (ws : List Word), s.Inv →
    i = .pktWrite p ws ∨ (i = .pktCsum p ∧ ws.length = s.cfg.N - 1 ∧ Holds (s.pkt p) ws) →
    exec i s = .next t → exec i t = .next u → u = { t with output := t.output ++ [0] }

/-! ### The packet framer -/

/-- PKT.WRITE stores its N words in the packet buffer, whatever they are, and changes nothing else (R250). Its words
are those the rule gives. -/
def Obligations.PacketWriteStoresItsWords : Prop :=
  ∀ (s : State) (p : PktSel) (ws : List Word), s.cfg.Legal → ws.length = s.cfg.N →
    encode (.pktWrite p ws) = (if p = .txp then 0x60000000 else 0x61000000) :: ws ∧
    ∃ m : Memory, exec (.pktWrite p ws) s = .next { s.setPkt p m with output := s.output ++ [0] } ∧
      Holds m ws ∧ ∀ i, s.cfg.N ≤ i → Memory.read m i = Memory.read (s.pkt p) i

/-- PKT.READ answers the N words in index order, an unwritten word as any value, and changes nothing; a written packet
makes no draw (R255, R48). Its words are those the rule gives. -/
def Obligations.PacketReadReturnsItsWords : Prop :=
  ∀ (s : State) (p : PktSel), s.cfg.Legal →
    encode (.pktRead p) = [if p = .txp then 0x70000000 else 0x71000000] ∧
    (∃ (ws : List Word) (d : Nat),
      exec (.pktRead p) s = .next { s with output := s.output ++ 0 :: ws, draws := d } ∧
      Reads (s.pkt p) (List.range s.cfg.N) ws) ∧
    (∀ ps, s.PktHolds p ps → exec (.pktRead p) s = .next { s with output := s.output ++ 0 :: ps })

/-- TX.BUILD takes the oldest `n = min(count, N - 3)` words from the TX ring and overwrites the whole of TXP with the
identifier, `n`, those words, the sentinel up to word N-2, and the checksum; it answers OK and `n` and changes nothing
else (R260). Its words are those the rule gives. -/
def Obligations.TxBuildConstructsThePacket : Prop :=
  ∀ (s : State) (id : Word), s.cfg.Legal → RingInv s.cfg.cap s.txRing →
    encode (.txBuild id) = [0xB0000000, id] ∧
    ∃ (n : Nat) (ws ps : List Word) (r : Ring) (m : Memory),
      n = min s.txRing.count (s.cfg.N - 3) ∧
      exec (.txBuild id) s = .next { s with
        txRing := r, txp := m, output := s.output ++ [0, BitVec.ofNat 32 n] } ∧
      r = { s.txRing with head := (s.txRing.head + n) % s.cfg.cap, count := s.txRing.count - n } ∧
      ws.length = n ∧ s.txRing.contents s.cfg.cap = ws.map some ++ r.contents s.cfg.cap ∧
      ps.length = s.cfg.N ∧ Holds m ps ∧ (∀ i, s.cfg.N ≤ i → Memory.read m i = Memory.read s.txp i) ∧
      ps[0]? = some id ∧ ps[1]? = some (BitVec.ofNat 32 n) ∧ (BitVec.ofNat 32 n).toNat = n ∧
      (∀ j < n, ps[2 + j]? = ws[j]?) ∧
      (∀ j, 2 + n ≤ j → j ≤ s.cfg.N - 2 → ps[j]? = some 0xDEADBEEF) ∧
      ps[s.cfg.N - 1]? = some (checksum s.cfg (ps.take (s.cfg.N - 1)))

/-- TX laws: TX.BUILD removes exactly `min(k, c)` words of the `k` in the ring, `c = N - 3`, the oldest ones, and sets
`L` to that number; the packet is well-formed, and valid for every CSUM: PKT.VERIFY and PKT.VFYP right after it answer
OK (the spec's own inference R261, "derived: from rule R260 and 41_checksum.md rule R235"). -/
def Obligations.BuiltPacketIsValid : Prop :=
  ∀ (s : State) (id : Word), s.cfg.Legal → RingInv s.cfg.cap s.txRing →
    ∃ (t : State) (ps : List Word), exec (.txBuild id) s = .next t ∧ t.PktHolds .txp ps ∧
      t.txRing.contents s.cfg.cap =
        (s.txRing.contents s.cfg.cap).drop (min s.txRing.count (s.cfg.N - 3)) ∧
      packetLength ps = min s.txRing.count (s.cfg.N - 3) ∧ packetLength ps ≤ s.cfg.N - 3 ∧
      (∀ j, 2 + packetLength ps ≤ j → j ≤ s.cfg.N - 2 → ps[j]? = some 0xDEADBEEF) ∧
      exec (.pktVerify .txp) t = .next { t with output := t.output ++ [0, id, 1] } ∧
      exec (.pktVfyp .txp) t = .next { t with output := t.output ++ [0, id, 0] }

/-- RX.PARSE of a written packet: the checksum is checked first, then the length, then the free space; only a packet
that passes all three has its payload appended to the RX ring, and nothing else changes (R280, R281). Its words are
those the rule gives. -/
def Obligations.RxParseChecksInOrder : Prop :=
  ∀ (s : State) (ps : List Word), s.cfg.Legal → RingInv s.cfg.cap s.rxRing → s.PktHolds .rxp ps →
    encode .rxParse = [0xC0000000] ∧
    (¬ validPacket s.cfg ps → exec .rxParse s = .next { s with output := s.output ++ [1, 0] }) ∧
    (validPacket s.cfg ps → s.cfg.N - 3 < packetLength ps →
      exec .rxParse s = .next { s with output := s.output ++ [4, 0] }) ∧
    (validPacket s.cfg ps → packetLength ps ≤ s.cfg.N - 3 → s.cfg.cap - s.rxRing.count < packetLength ps →
      exec .rxParse s = .next { s with output := s.output ++ [2, 0] }) ∧
    (validPacket s.cfg ps → packetLength ps ≤ s.cfg.N - 3 → packetLength ps ≤ s.cfg.cap - s.rxRing.count →
      ∃ (ws : List Word) (r : Ring), ws.length = packetLength ps ∧ (∀ j < packetLength ps, ws[j]? = ps[2 + j]?) ∧
        exec .rxParse s = .next { s with rxRing := r, output := s.output ++ [0, 1] } ∧
        r.head = s.rxRing.head ∧ r.tail = (s.rxRing.tail + packetLength ps) % s.cfg.cap ∧
        r.count = s.rxRing.count + packetLength ps ∧
        r.contents s.cfg.cap = s.rxRing.contents s.cfg.cap ++ ws.map some)

/-- RX.PARSE of any packet buffer, written or not, completes on some reading of it, each unwritten word being any
value; unless it answers OK, only `Out` changes, and when it does, only the RX ring and `Out` (R280, R48; the spec's
own inference R283, "derived: from rule R280 and 40_ring_buffer.md rule R153"). -/
def Obligations.RxParseIsAtomic : Prop :=
  ∀ s : State, s.cfg.Legal →
    ∃ (t : State) (ps : List Word) (d : Nat), exec .rxParse s = .next t ∧ Reads s.rxp (List.range s.cfg.N) ps ∧
      (¬ validPacket s.cfg ps → t = { s with output := s.output ++ [1, 0], draws := d }) ∧
      (validPacket s.cfg ps → s.cfg.N - 3 < packetLength ps →
        t = { s with output := s.output ++ [4, 0], draws := d }) ∧
      (validPacket s.cfg ps → packetLength ps ≤ s.cfg.N - 3 → s.rxRing.free s.cfg.cap < packetLength ps →
        t = { s with output := s.output ++ [2, 0], draws := d }) ∧
      (validPacket s.cfg ps → packetLength ps ≤ s.cfg.N - 3 → packetLength ps ≤ s.rxRing.free s.cfg.cap →
        t = { s with rxRing := t.rxRing, output := s.output ++ [0, 1], draws := d })

/-- FIFO replay: after a successful RX.PARSE of a written packet, consuming the whole RX ring returns the words it held
before and then the payload, in packet order (the spec's own inference R283, "derived: from rule R280 and
40_ring_buffer.md rule R153"). -/
def Obligations.ParsedPayloadIsReplayedInOrder : Prop :=
  ∀ (s t : State) (ps old : List Word) (cnt : BitVec 16), s.cfg.Legal → RingInv s.cfg.cap s.rxRing →
    s.PktHolds .rxp ps → s.rxRing.contents s.cfg.cap = old.map some →
    exec .rxParse s = .next t → t.output = s.output ++ [0, 1] → cnt.toNat = t.rxRing.count →
    ∃ u, exec (.rbConsume .rx cnt) t = .next u ∧
      u.output = t.output ++ 0 :: (old ++ (ps.drop 2).take (packetLength ps)) ∧ u.rxRing.contents s.cfg.cap = []

/-- RX.PARSE ignores padding: two valid packets that agree on the identifier, the length and the payload have the same
outcome, whatever their padding, and are accepted when the length is legal and the payload fits (R282). -/
def Obligations.PaddingIsIgnored : Prop :=
  ∀ (s s' t t' : State) (ps ps' : List Word), s.cfg.Legal → s.PktHolds .rxp ps → s'.PktHolds .rxp ps' →
    s' = { s with rxp := s'.rxp } → validPacket s.cfg ps → validPacket s.cfg ps' →
    ps.take (2 + packetLength ps) = ps'.take (2 + packetLength ps) →
    exec .rxParse s = .next t → exec .rxParse s' = .next t' →
    t.output = t'.output ∧ t.rxRing = t'.rxRing ∧
    (packetLength ps ≤ s.cfg.N - 3 → packetLength ps ≤ s.rxRing.free s.cfg.cap → t.output = s.output ++ [0, 1])

/-- The TX path touches only RB[0] and PKT[0], the RX path only PKT[1] and RB[1]: neither writes anything else but
`Out`, and neither's effect depends on the other's storage. For RX.PARSE the draws are the same in both states, since
RXP may be unwritten (R94). -/
def Obligations.PathsAreIndependent : Prop :=
  ∀ (s s' t t' : State) (id : Word), s.cfg = s'.cfg →
    (RingInv s.cfg.cap s.txRing → exec (.txBuild id) s = .next t →
      t = { s with txRing := t.txRing, txp := t.txp, output := t.output } ∧
      (s.txRing = s'.txRing → exec (.txBuild id) s' = .next t' →
        t.txRing = t'.txRing ∧ (∀ i < s.cfg.N, Memory.read t.txp i = Memory.read t'.txp i) ∧
        ∃ out, t.output = s.output ++ out ∧ t'.output = s'.output ++ out)) ∧
    (exec .rxParse s = .next t →
      t = { s with rxRing := t.rxRing, output := t.output, draws := t.draws } ∧
      (s.rxRing = s'.rxRing → s.rxp = s'.rxp → s.draws = s'.draws → exec .rxParse s' = .next t' →
        t.rxRing = t'.rxRing ∧ ∃ out, t.output = s.output ++ out ∧ t'.output = s'.output ++ out))

/-- Loopback: TX.BUILD, then the host copies TXP to RXP by PKT.READ and PKT.WRITE, then RX.PARSE: it answers OK and
appends exactly the words TX.BUILD took if they fit in the RX ring, and answers OVERFLOW otherwise, for every CSUM and
byte order (the spec's own inference R290, "derived: from rule R260, rule R255, rule R250 and rule R280"). -/
def Obligations.LoopbackDeliversThePayload : Prop :=
  ∀ (s : State) (id : Word), s.Inv →
    ∃ (n : Nat) (ws ps : List Word) (t u v w : State),
      n = min s.txRing.count (s.cfg.N - 3) ∧ ws.length = n ∧
      exec (.txBuild id) s = .next t ∧
      s.txRing.contents s.cfg.cap = ws.map some ++ t.txRing.contents s.cfg.cap ∧
      exec (.pktRead .txp) t = .next u ∧ u.output = t.output ++ 0 :: ps ∧ ps.length = s.cfg.N ∧
      exec (.pktWrite .rxp ps) u = .next v ∧ exec .rxParse v = .next w ∧
      (n ≤ s.rxRing.free s.cfg.cap → w.output = v.output ++ [0, 1] ∧
        w.rxRing.contents s.cfg.cap = s.rxRing.contents s.cfg.cap ++ ws.map some) ∧
      (s.rxRing.free s.cfg.cap < n → w.output = v.output ++ [2, 0] ∧ w.rxRing = s.rxRing)

/-- Retry after backpressure: when RX.PARSE answers OVERFLOW the state is as it was, and when the host then consumes
enough words of the RX ring, the command word alone succeeds; likewise an RB.APPEND sent again (R376). -/
def Obligations.RetryAfterBackpressureSucceeds : Prop :=
  encode .rxParse = [0xC0000000] ∧
  (∀ (s t : State) (ps : List Word) (cnt : BitVec 16), s.cfg.Legal → RingInv s.cfg.cap s.rxRing →
    s.PktHolds .rxp ps → exec .rxParse s = .next t → t.output = s.output ++ [2, 0] →
    t = { s with output := s.output ++ [2, 0] } ∧
    (cnt.toNat ≤ s.rxRing.count → packetLength ps ≤ s.rxRing.free s.cfg.cap + cnt.toNat →
      ∃ u v, exec (.rbConsume .rx cnt) t = .next u ∧ exec .rxParse u = .next v ∧ v.output = u.output ++ [0, 1])) ∧
  (∀ (s t : State) (b : RingSel) (ws : List Word) (cnt : BitVec 16), s.cfg.Legal →
    RingInv s.cfg.cap (s.ring b) → exec (.rbAppend b ws) s = .next t → t.output = s.output ++ [2] →
    t = { s with output := s.output ++ [2] } ∧
    (cnt.toNat ≤ (s.ring b).count → ws.length ≤ (s.ring b).free s.cfg.cap + cnt.toNat →
      ∃ u v, exec (.rbConsume b cnt) t = .next u ∧ exec (.rbAppend b ws) u = .next v ∧ v.output = u.output ++ [0]))

/-! ### System -/

/-- CFG answers the build parameters and changes nothing (R300). Its words are those the rule gives. -/
def Obligations.CfgReportsTheBuild : Prop :=
  ∀ s : State, s.cfg.Legal →
    encode .cfg = [0xD0000000] ∧
    ∃ cap n : Word, exec .cfg s = .next { s with output := s.output ++ [0, cap, n] } ∧
      cap.toNat = s.cfg.cap ∧ n.toNat = s.cfg.N

/-- Every line of assembly that names a command assembles to exactly one legal command word and its operand words, and
these decode to that command (R121, R122). -/
def Obligations.AssembledLineIsOneCommand : Prop :=
  ∀ (n : Nat) (line : String) (i : Instr), parseLine n line = some (.command i) →
    ∃ (cw : Word) (ops : List Word), assemble n line = some (cw :: ops) ∧ LegalWord cw ∧
      ops.length = operandWords n cw ∧ decode n (cw :: ops) = .command i []
end

