-- ==== Sys2Proof/Laws/Checksum.lean ====
section
/-! SUPPORT. The laws of Adler-32 (41_checksum.md R201): the range of its two sums, and how they move when the sums or the
bytes before some point change. -/

namespace Sys2Proof.Machine

theorem adlerSums_append (bs cs : List Byte) (a s : Nat) :
    adlerSums (bs ++ cs) a s = adlerSums cs (adlerSums bs a s).1 (adlerSums bs a s).2 := by
  induction bs generalizing a s with
  | nil => rfl
  | cons x bs ih => exact ih _ _

/-- Both sums stay below 65521. -/
theorem adlerSums_lt (bs : List Byte) {a s : Nat} (ha : a < 65521) (hs : s < 65521) :
    (adlerSums bs a s).1 < 65521 ∧ (adlerSums bs a s).2 < 65521 := by
  induction bs generalizing a s with
  | nil => exact ⟨ha, hs⟩
  | cons x bs ih => exact ih (Nat.mod_lt _ (by decide)) (Nat.mod_lt _ (by decide))

/-- How the sums over a list of bytes depend on the sums before it: the low sum moves with the low sum, the high sum
with the high sum and `length` times the low one. -/
theorem adlerSums_affine (bs : List Byte) : ∃ A S : Int, ∀ a s : Nat,
    ((adlerSums bs a s).1 : Int) ≡ a + A [ZMOD 65521] ∧
    ((adlerSums bs a s).2 : Int) ≡ s + bs.length * a + S [ZMOD 65521] := by
  induction bs with
  | nil => exact ⟨0, 0, fun a s => by simp [adlerSums]⟩
  | cons x bs ih =>
    obtain ⟨A, S, h⟩ := ih
    refine ⟨x.toNat + A, (bs.length + 1) * x.toNat + S, fun a s => ?_⟩
    obtain ⟨h1, h2⟩ := h ((a + x.toNat) % 65521) ((s + (a + x.toNat) % 65521) % 65521)
    have e1 : (((a + x.toNat) % 65521 : Nat) : Int) ≡ a + x.toNat [ZMOD 65521] := by
      push_cast; exact Int.mod_modEq _ _
    have e2 : (((s + (a + x.toNat) % 65521) % 65521 : Nat) : Int) ≡ s + (a + x.toNat) [ZMOD 65521] := by
      push_cast
      exact (Int.mod_modEq _ _).trans (Int.ModEq.add_left _ (Int.mod_modEq _ _))
    constructor
    · refine h1.trans ((e1.add_right A).trans ?_)
      rw [add_assoc]
    · refine h2.trans (((e2.add (e1.mul_left bs.length)).add_right S).trans ?_)
      unfold Int.ModEq; congr 1; push_cast [List.length_cons]; ring

/-- The two halves of a checksum are the two sums. -/
theorem adler32_halves (bs : List Byte) :
    (adler32 bs).toNat / 65536 = (adlerSums bs 1 0).2 ∧ (adler32 bs).toNat % 65536 = (adlerSums bs 1 0).1 := by
  obtain ⟨h1, h2⟩ := adlerSums_lt bs (a := 1) (s := 0) (by decide) (by decide)
  have : (adler32 bs).toNat = (adlerSums bs 1 0).2 * 65536 + (adlerSums bs 1 0).1 := by
    simp only [adler32, BitVec.toNat_ofNat]
    exact Nat.mod_eq_of_lt (by omega)
  rw [this]
  constructor <;> omega

/-- Two checksums are equal iff both sums are. -/
theorem adler32_eq_iff (bs cs : List Byte) : adler32 bs = adler32 cs ↔ adlerSums bs 1 0 = adlerSums cs 1 0 := by
  constructor
  · intro h
    obtain ⟨h1, h2⟩ := adler32_halves bs
    obtain ⟨h3, h4⟩ := adler32_halves cs
    rw [h] at h1 h2
    exact Prod.ext (h2.symm.trans h4) (h1.symm.trans h3)
  · intro h; simp [adler32, h]

theorem bytesOf_eq (order : ByteOrder) (w : Word) : ∃ x0 x1 x2 x3 : Byte, bytesOf order w = [x0, x1, x2, x3] := by
  cases order <;> exact ⟨_, _, _, _, rfl⟩

/-- The bytes of a list of words, one word replaced. -/
theorem flatMap_set (order : ByteOrder) {ws : List Word} {i : Nat} (hi : i < ws.length) (w : Word) :
    (ws.set i w).flatMap (bytesOf order) =
      (ws.take i).flatMap (bytesOf order) ++ bytesOf order w ++ (ws.drop (i + 1)).flatMap (bytesOf order) := by
  rw [List.set_eq_take_append_cons_drop, if_pos hi]
  simp

/-- Four bytes in a row, replaced by four others, move the low sum by the sum of the changes, and the high sum by their
sum weighted by the number of bytes from each on, later bytes included. -/
theorem adlerSums_replace (pre post : List Byte) (x0 x1 x2 x3 y0 y1 y2 y3 : Byte) {d0 d1 d2 d3 : Int}
    (h0 : (y0.toNat : Int) = x0.toNat + d0) (h1 : (y1.toNat : Int) = x1.toNat + d1)
    (h2 : (y2.toNat : Int) = x2.toNat + d2) (h3 : (y3.toNat : Int) = x3.toNat + d3) :
    ((adlerSums (pre ++ [y0, y1, y2, y3] ++ post) 1 0).1 : Int) ≡
      (adlerSums (pre ++ [x0, x1, x2, x3] ++ post) 1 0).1 + (d0 + d1 + d2 + d3) [ZMOD 65521] ∧
    ((adlerSums (pre ++ [y0, y1, y2, y3] ++ post) 1 0).2 : Int) ≡
      (adlerSums (pre ++ [x0, x1, x2, x3] ++ post) 1 0).2 +
        (4 * d0 + 3 * d1 + 2 * d2 + d3 + post.length * (d0 + d1 + d2 + d3)) [ZMOD 65521] := by
  obtain ⟨A, S, h⟩ := adlerSums_affine post
  simp only [adlerSums_append]
  generalize (adlerSums pre 1 0).1 = a
  generalize (adlerSums pre 1 0).2 = s
  have mid : ∀ z0 z1 z2 z3 : Byte,
      ((adlerSums [z0, z1, z2, z3] a s).1 : Int) ≡ a + (z0.toNat + z1.toNat + z2.toNat + z3.toNat) [ZMOD 65521] ∧
      ((adlerSums [z0, z1, z2, z3] a s).2 : Int) ≡
        s + 4 * a + (4 * z0.toNat + 3 * z1.toNat + 2 * z2.toNat + z3.toNat) [ZMOD 65521] := by
    intro z0 z1 z2 z3
    simp only [adlerSums]
    constructor <;> (unfold Int.ModEq; omega)
  obtain ⟨mx1, mx2⟩ := mid x0 x1 x2 x3
  obtain ⟨my1, my2⟩ := mid y0 y1 y2 y3
  generalize adlerSums [x0, x1, x2, x3] a s = X at mx1 mx2 ⊢
  generalize adlerSums [y0, y1, y2, y3] a s = Y at my1 my2 ⊢
  have d1' : (Y.1 : Int) ≡ X.1 + (d0 + d1 + d2 + d3) [ZMOD 65521] := by
    refine my1.trans (Int.ModEq.trans ?_ (mx1.symm.add_right _))
    unfold Int.ModEq; congr 1; rw [h0, h1, h2, h3]; ring
  have d2' : (Y.2 : Int) ≡ X.2 + (4 * d0 + 3 * d1 + 2 * d2 + d3) [ZMOD 65521] := by
    refine my2.trans (Int.ModEq.trans ?_ (mx2.symm.add_right _))
    unfold Int.ModEq; congr 1; rw [h0, h1, h2, h3]; ring
  obtain ⟨hX1, hX2⟩ := h X.1 X.2
  obtain ⟨hY1, hY2⟩ := h Y.1 Y.2
  constructor
  · refine hY1.trans ((d1'.add_right A).trans (Int.ModEq.trans ?_ (hX1.symm.add_right _)))
    unfold Int.ModEq; congr 1; ring
  · refine hY2.trans (((d2'.add (d1'.mul_left post.length)).add_right S).trans
      (Int.ModEq.trans ?_ (hX2.symm.add_right _)))
    unfold Int.ModEq; congr 1; ring

end Sys2Proof.Machine
end

