-- ==== Sys2Proof/Laws/Decode.lean ====
section
/-! SUPPORT. The laws of the decoder and the encoder: the fields of an encoded command word, and what each answer of the
decoder says about the words it read (30_encoding.md R110 to R118). -/

namespace Sys2Proof

open Sys2Proof.Machine

/-! ### Fields -/

theorem opField_toNat (cw : Word) : (opField cw).toNat = opNumber cw := by
  rw [opField, BitVec.extractLsb'_toNat, Nat.shiftRight_eq_div_pow, Nat.mod_eq_of_lt]
  have := cw.isLt; omega

theorem rsv1Field_toNat (cw : Word) : (rsv1Field cw).toNat = cw.toNat / 2 ^ 25 % 8 := by
  rw [rsv1Field, BitVec.extractLsb'_toNat, Nat.shiftRight_eq_div_pow]

theorem rsv2Field_toNat (cw : Word) : (rsv2Field cw).toNat = cw.toNat / 2 ^ 16 % 256 := by
  rw [rsv2Field, BitVec.extractLsb'_toNat, Nat.shiftRight_eq_div_pow]

theorem cntField_toNat (cw : Word) : (cntField cw).toNat = cntNumber cw := by
  rw [cntField, BitVec.extractLsb'_toNat, Nat.shiftRight_eq_div_pow, pow_zero, Nat.div_one]

theorem selField_iff (cw : Word) : selField cw = true ↔ cw.toNat / 2 ^ 24 % 2 = 1 := by
  simp [selField, BitVec.getLsbD, Nat.testBit_eq_decide_div_mod_eq]

/-- A command word is made of its five fields. -/
theorem word_of_fields (cw : Word) :
    cw.toNat = (opField cw).toNat * 2 ^ 28 + (rsv1Field cw).toNat * 2 ^ 25 + (selField cw).toNat * 2 ^ 24 +
      (rsv2Field cw).toNat * 2 ^ 16 + (cntField cw).toNat := by
  have hs : (selField cw).toNat = cw.toNat / 2 ^ 24 % 2 := by
    have := selField_iff cw
    cases h : selField cw <;> simp_all
  rw [hs, opField_toNat, rsv1Field_toNat, rsv2Field_toNat, cntField_toNat]
  have := cw.isLt
  simp only [opNumber, cntNumber]
  omega

/-- The number of an encoded command word (R110). -/
theorem head_word_toNat (h : Head) :
    h.word.toNat = h.op.code.toNat * 2 ^ 28 + h.sel.toNat * 2 ^ 24 + h.cnt.toNat := by
  have hc := h.cnt.isLt
  have hb : (BitVec.ofBool h.sel).toNat = h.sel.toNat := by cases h.sel <;> rfl
  have hs : h.sel.toNat < 2 := by cases h.sel <;> decide
  simp only [Head.word, BitVec.toNat_append, Nat.shiftLeft_eq, BitVec.toNat_ofNat, hb, Nat.zero_mod, Nat.or_zero]
  rw [← Nat.shiftLeft_eq _ 1, ← Nat.shiftLeft_add_eq_or_of_lt (i := 1) hs,
    ← Nat.shiftLeft_eq _ 16, ← Nat.shiftLeft_add_eq_or_of_lt (i := 16) hc]
  simp only [Nat.shiftLeft_eq]
  omega

theorem opField_word (h : Head) : opField h.word = h.op.code := by
  apply BitVec.eq_of_toNat_eq
  have := h.cnt.isLt
  have hs : h.sel.toNat < 2 := by cases h.sel <;> decide
  rw [opField_toNat, opNumber, head_word_toNat]; omega

theorem rsv1Field_word (h : Head) : rsv1Field h.word = 0 := by
  apply BitVec.eq_of_toNat_eq
  have := h.cnt.isLt
  have hs : h.sel.toNat < 2 := by cases h.sel <;> decide
  rw [rsv1Field_toNat, head_word_toNat]; simp; omega

theorem rsv2Field_word (h : Head) : rsv2Field h.word = 0 := by
  apply BitVec.eq_of_toNat_eq
  have := h.cnt.isLt
  rw [rsv2Field_toNat, head_word_toNat]; simp; omega

theorem cntField_word (h : Head) : cntField h.word = h.cnt := by
  apply BitVec.eq_of_toNat_eq
  have := h.cnt.isLt
  rw [cntField_toNat, cntNumber, head_word_toNat]; omega

theorem selField_word (h : Head) : selField h.word = h.sel := by
  have := h.cnt.isLt
  rw [Bool.eq_iff_iff, selField_iff, head_word_toNat]
  cases h.sel <;> simp <;> omega

/-! ### Opcodes -/

@[simp] theorem opcodeOf_code (op : Opcode) : opcodeOf op.code = some op := by cases op <;> rfl

theorem opcodeOf_some {x : BitVec 4} {op : Opcode} (h : opcodeOf x = some op) : x = op.code := by
  revert x; cases op <;> decide

theorem opcodeOf_none {x : BitVec 4} : opcodeOf x = none ↔ ¬ (1 ≤ x.toNat ∧ x.toNat ≤ 13) := by
  revert x; decide

/-! ### Heads -/

/-- The head obeys R117: CNT and SEL are 0 where the command does not take them. -/
structure Head.Valid (h : Head) : Prop where
  cnt : h.op.takesCnt = false → h.cnt = 0
  sel : h.op.takesSel = false → h.sel = false

/-- Decoding an encoded head gives it back. -/
theorem decodeHead_word {h : Head} (hv : h.Valid) : decodeHead h.word = .legal h := by
  have hc : ¬ (h.op.takesCnt = false ∧ h.cnt ≠ 0) := fun x => x.2 (hv.cnt x.1)
  have hs : ¬ (h.op.takesSel = false ∧ h.sel = true) := fun x => by simp [hv.sel x.1] at x
  unfold decodeHead
  rw [opField_word, opcodeOf_code]
  simp only [rsv1Field_word, rsv2Field_word, cntField_word, selField_word, ne_eq, not_true_eq_false, if_false]
  rw [if_neg hc, if_neg hs]

/-- What the decoder's legal answer says: the word is the head's encoding, bit for bit. -/
theorem decodeHead_legal {cw : Word} {h : Head} (hd : decodeHead cw = .legal h) : cw = h.word ∧ h.Valid := by
  unfold decodeHead at hd
  split at hd
  · exact nomatch hd
  · rename_i op hop
    split at hd
    · exact nomatch hd
    rename_i h1
    split at hd
    · exact nomatch hd
    rename_i h2
    split at hd
    · exact nomatch hd
    rename_i h3
    split at hd
    · exact nomatch hd
    rename_i h4
    obtain rfl := (HeadResult.legal.inj hd).symm
    simp only [ne_eq, Decidable.not_not, not_and, Bool.not_eq_true] at h1 h2 h3 h4
    refine ⟨BitVec.eq_of_toNat_eq ?_, ⟨h3, h4⟩⟩
    rw [word_of_fields, head_word_toNat, h1, h2, opcodeOf_some hop]
    simp

/-- `legal(cw)` of R117 is what the decoder decides. -/
theorem legalWord_iff {cw : Word} : LegalWord cw ↔ ∃ h, decodeHead cw = .legal h := by
  constructor
  · rintro ⟨hop, h1, h2, h3, h4⟩
    have e1 : rsv1Field cw = 0 := BitVec.eq_of_toNat_eq (by rw [rsv1Field_toNat, h1]; rfl)
    have e2 : rsv2Field cw = 0 := BitVec.eq_of_toNat_eq (by rw [rsv2Field_toNat, h2]; rfl)
    obtain ⟨op, ho⟩ : ∃ op, opcodeOf (opField cw) = some op := by
      rw [← Option.ne_none_iff_exists']
      rw [ne_eq, opcodeOf_none, opField_toNat]
      exact not_not.2 hop
    have hcode : opNumber cw = op.code.toNat := by rw [← opField_toNat, opcodeOf_some ho]
    have h3' : ¬ (op.takesCnt = false ∧ cntField cw ≠ 0) := by
      rintro ⟨ht, hc⟩
      rcases h3 with h3 | h3
      · rw [hcode] at h3; revert ht h3; cases op <;> decide
      · exact hc (BitVec.eq_of_toNat_eq (by rw [cntField_toNat, h3]; rfl))
    have h4' : ¬ (op.takesSel = false ∧ selField cw = true) := by
      rintro ⟨ht, hs⟩
      rcases h4 with h4 | h4
      · rw [hcode] at h4; revert ht h4; cases op <;> decide
      · rw [selField_iff] at hs; omega
    exact ⟨_, by unfold decodeHead; rw [ho]; simp only [e1, e2, ne_eq, not_true_eq_false, if_false]; rw [if_neg h3', if_neg h4']⟩
  · rintro ⟨h, hd⟩
    obtain ⟨rfl, hv⟩ := decodeHead_legal hd
    have hn : opNumber h.word = h.op.code.toNat := by rw [← opField_toNat, opField_word]
    refine ⟨?_, ?_, ?_, ?_, ?_⟩
    · rw [hn]; cases h.op <;> decide
    · rw [← rsv1Field_toNat, rsv1Field_word]; rfl
    · rw [← rsv2Field_toNat, rsv2Field_word]; rfl
    · rw [hn, ← cntField_toNat, cntField_word]
      cases ht : h.op.takesCnt
      · exact .inr (by rw [hv.cnt ht]; rfl)
      · left; revert ht; cases h.op <;> decide
    · rw [hn]
      cases ht : h.op.takesSel
      · right
        have := selField_iff h.word
        rw [selField_word, hv.sel ht] at this
        simp at this; omega
      · left; revert ht; cases h.op <;> decide

/-- An illegal word is answered as such. -/
theorem illegalWord_iff {cw : Word} : ¬ LegalWord cw ↔ ∃ why, decodeHead cw = .illegal why := by
  rw [legalWord_iff]
  cases h : decodeHead cw <;> simp

/-- The operand count of a legal word is R113's. -/
theorem operandCount_eq {cw : Word} {h : Head} (hd : decodeHead cw = .legal h) (n : Nat) :
    h.operandCount n = operandWords n cw := by
  obtain ⟨rfl, -⟩ := decodeHead_legal hd
  have hn : opNumber h.word = h.op.code.toNat := by rw [← opField_toNat, opField_word]
  have hc : cntNumber h.word = h.cnt.toNat := by rw [← cntField_toNat, cntField_word]
  rw [operandWords, hn, hc, Head.operandCount]
  cases h.op <;> rfl

/-! ### Masks (R118) -/

theorem and_eq_iff (x m y : Word) : x &&& m = y ↔ ∀ j < 32, (x.getLsbD j && m.getLsbD j) = y.getLsbD j := by
  constructor
  · rintro rfl j -; simp
  · intro h
    exact BitVec.eq_of_getLsbD_eq fun j hj => by simpa using h j hj

theorem extract_eq_iff (x y : Word) (a n : Nat) :
    x.extractLsb' a n = y.extractLsb' a n ↔ ∀ k < n, x.getLsbD (a + k) = y.getLsbD (a + k) := by
  constructor
  · intro h k hk
    have := congrArg (fun z => z.getLsbD k) h
    simpa [hk] using this
  · intro h
    exact BitVec.eq_of_getLsbD_eq fun j hj => by simp [hj, h j hj]

/-- The bits of the two-field mask of RB.APPEND and RB.CONSUME: all but SEL and CNT. -/
theorem maskCount_bit : ∀ j < 32, (0xFEFF0000#32).getLsbD j = (decide (16 ≤ j) && decide (j ≠ 24)) := by decide

/-- The bits of the mask of the other commands that take SEL: all but SEL. -/
theorem maskSel_bit : ∀ j < 32, (0xFEFFFFFF#32).getLsbD j = decide (j ≠ 24) := by decide

/-- A word agrees with a pattern under the mask of RB.APPEND and RB.CONSUME iff it agrees in OP, RSV1 and RSV2. -/
theorem maskCount_iff {cw p : Word} (hs : selField p = false) (hc : cntField p = 0) :
    cw &&& 0xFEFF0000#32 = p ↔ opField cw = opField p ∧ rsv1Field cw = rsv1Field p ∧ rsv2Field cw = rsv2Field p := by
  have hc' : ∀ k < 16, p.getLsbD k = false := fun k hk => by
    have := congrArg (fun z => z.getLsbD k) hc
    simpa [cntField, hk] using this
  simp only [selField] at hs
  simp only [opField, rsv1Field, rsv2Field, extract_eq_iff, and_eq_iff]
  constructor
  · intro h
    refine ⟨fun k hk => ?_, fun k hk => ?_, fun k hk => ?_⟩
    all_goals
      rw [← h _ (by omega), maskCount_bit _ (by omega)]
      simp; omega
  · rintro ⟨h1, h2, h3⟩ j hj
    rw [maskCount_bit j hj]
    rcases Nat.lt_or_ge j 16 with a | a
    · simp [hc' j a]; omega
    rcases Nat.lt_or_ge j 24 with b | b
    · have := h3 (j - 16) (by omega)
      rw [show 16 + (j - 16) = j by omega] at this
      simp [this]; omega
    rcases Nat.lt_or_ge j 25 with c | c
    · rw [show j = 24 by omega, hs]; simp
    rcases Nat.lt_or_ge j 28 with d | d
    · have := h2 (j - 25) (by omega)
      rw [show 25 + (j - 25) = j by omega] at this
      simp [this]; omega
    · have := h1 (j - 28) (by omega)
      rw [show 28 + (j - 28) = j by omega] at this
      simp [this]; omega

/-- A word agrees with a pattern under the mask of a command without a count iff it agrees in all but SEL. -/
theorem maskSel_iff {cw p : Word} (hs : selField p = false) :
    cw &&& 0xFEFFFFFF#32 = p ↔
      (opField cw = opField p ∧ rsv1Field cw = rsv1Field p ∧ rsv2Field cw = rsv2Field p) ∧ cntField cw = cntField p := by
  simp only [selField] at hs
  simp only [opField, rsv1Field, rsv2Field, cntField, extract_eq_iff, and_eq_iff]
  constructor
  · intro h
    refine ⟨⟨fun k hk => ?_, fun k hk => ?_, fun k hk => ?_⟩, fun k hk => ?_⟩
    all_goals
      rw [← h _ (by omega), maskSel_bit _ (by omega)]
      simp; omega
  · rintro ⟨⟨h1, h2, h3⟩, h4⟩ j hj
    rw [maskSel_bit j hj]
    rcases Nat.lt_or_ge j 16 with a | a
    · have := h4 j a
      rw [Nat.zero_add] at this
      simp [this]; omega
    rcases Nat.lt_or_ge j 24 with b | b
    · have := h3 (j - 16) (by omega)
      rw [show 16 + (j - 16) = j by omega] at this
      simp [this]; omega
    rcases Nat.lt_or_ge j 25 with c | c
    · rw [show j = 24 by omega, hs]; simp
    rcases Nat.lt_or_ge j 28 with d | d
    · have := h2 (j - 25) (by omega)
      rw [show 25 + (j - 25) = j by omega] at this
      simp [this]; omega
    · have := h1 (j - 28) (by omega)
      rw [show 28 + (j - 28) = j by omega] at this
      simp [this]; omega

/-- The fields of a row's pattern: its opcode, and zeros (R118). -/
theorem pattern_fields (op : Opcode) : opField op.row.pattern = op.code ∧ rsv1Field op.row.pattern = 0 ∧
    rsv2Field op.row.pattern = 0 ∧ selField op.row.pattern = false ∧ cntField op.row.pattern = 0 := by
  cases op <;> decide

/-- A valid head's word matches its opcode's row. -/
theorem row_has_word {h : Head} (hv : h.Valid) : h.op.row.has h.word = true := by
  have h1 := opField_word h
  have h2 := rsv1Field_word h
  have h3 := rsv2Field_word h
  have h4 := cntField_word h
  have h5 := hv.cnt
  have h6 := hv.sel
  obtain ⟨p1, p2, p3, p4, p5⟩ := pattern_fields h.op
  rw [← p1] at h1
  rw [← p2] at h2
  rw [← p3] at h3
  simp only [EncodingRow.has, decide_eq_true_eq]
  obtain ⟨op, sel, cnt⟩ := h
  cases op
  case rbAppend | rbConsume => exact (maskCount_iff p4 p5).2 ⟨h1, h2, h3⟩
  case txBuild | rxParse | cfg =>
    obtain rfl : cnt = 0 := h5 rfl
    obtain rfl : sel = false := h6 rfl
    decide
  all_goals
    obtain rfl : cnt = 0 := h5 rfl
    exact (maskSel_iff p4).2 ⟨⟨h1, h2, h3⟩, h4.trans p5.symm⟩

/-! ### Commands -/

theorem head_valid (i : Instr) : i.head.Valid := by
  constructor <;> cases i <;> simp [Instr.head, Opcode.takesCnt, Opcode.takesSel]

theorem operands_length {n : Nat} {i : Instr} (h : i.wellFormed n = true) :
    i.operands.length = i.head.operandCount n := by
  cases i <;> simp_all [Instr.wellFormed, Instr.operands, Instr.head, Head.operandCount]
  omega

@[simp] theorem ringOfSel_selOfRing (b : RingSel) : ringOfSel (selOfRing b) = b := by cases b <;> rfl

@[simp] theorem pktOfSel_selOfPkt (p : PktSel) : pktOfSel (selOfPkt p) = p := by cases p <;> rfl

theorem head_command (i : Instr) : i.head.command i.operands = i := by
  cases i <;> simp [Instr.head, Head.command, Instr.operands]

/-- The command read from a valid head and as many operand words as it takes is well formed, and encodes to them. -/
theorem command_encode {n : Nat} {h : Head} (hv : h.Valid) {ops : List Word} (hl : ops.length = h.operandCount n) :
    (h.command ops).wellFormed n = true ∧ encode (h.command ops) = h.word :: ops := by
  obtain ⟨op, sel, cnt⟩ := h
  have hc := hv.cnt
  have hs := hv.sel
  have hlt := cnt.isLt
  cases op <;> cases sel <;>
    simp_all [Head.command, Instr.wellFormed, encode, Instr.head, Instr.operands, Head.operandCount, ringOfSel, pktOfSel,
      selOfRing, selOfPkt, Opcode.takesCnt, Opcode.takesSel]
  obtain ⟨id, rfl⟩ := List.length_eq_one_iff.1 hl
  rfl

end Sys2Proof
end

