-- ==== Sys2Proof/Laws/Memory.lean ====
section
/-! SUPPORT. The laws of the storage arrays: a read after a write, the canonical form, and what a drawing read can
answer. -/

namespace Sys2Proof.Machine

/-! ### One write -/

@[simp] theorem read_nil (i : Nat) : Memory.read [] i = none := rfl

/-- A read after a write: the Word written at its place, what was there before at every other place. -/
@[simp] theorem read_write (m : Memory) (i j : Nat) (w : Word) :
    Memory.read (Memory.write m i w) j = if j = i then some w else Memory.read m j := by
  induction m with
  | nil => simp [Memory.write, Memory.read]
  | cons c m ih =>
    obtain ⟨k, v⟩ := c
    simp only [Memory.write]
    split
    · simp only [Memory.read]
    · split
      · subst_vars; simp only [Memory.read]; split <;> rfl
      · simp only [Memory.read, ih]
        split <;> split <;> first | rfl | (exfalso; omega)

theorem mem_write {m : Memory} {i : Nat} {w : Word} {c : Nat × Word} (h : c ∈ Memory.write m i w) :
    c.1 = i ∨ c ∈ m := by
  induction m with
  | nil => simp [Memory.write] at h; simp [h]
  | cons d m ih =>
    obtain ⟨k, v⟩ := d
    simp only [Memory.write] at h
    split at h
    · rcases List.mem_cons.1 h with rfl | h
      · exact .inl rfl
      · exact .inr h
    · split at h
      · rcases List.mem_cons.1 h with rfl | h
        · exact .inl rfl
        · exact .inr (List.mem_cons_of_mem _ h)
      · rcases List.mem_cons.1 h with rfl | h
        · exact .inr List.mem_cons_self
        · exact (ih h).imp id (List.mem_cons_of_mem _)

/-- A write keeps the canonical form. -/
theorem write_wf {m : Memory} (h : Memory.wf m) (i : Nat) (w : Word) : Memory.wf (Memory.write m i w) := by
  induction m with
  | nil => simp [Memory.write]
  | cons d m ih =>
    obtain ⟨k, v⟩ := d
    obtain ⟨hk, hm⟩ := List.pairwise_cons.1 h
    simp only [Memory.write]
    split
    · rename_i hik
      refine List.pairwise_cons.2 ⟨fun c hc => ?_, h⟩
      rcases List.mem_cons.1 hc with rfl | hc
      · exact hik
      · exact hik.trans (hk c hc)
    · split
      · subst_vars; exact List.pairwise_cons.2 ⟨hk, hm⟩
      · refine List.pairwise_cons.2 ⟨fun c hc => ?_, ih hm⟩
        rcases mem_write hc with hc | hc
        · simp only [hc]; omega
        · exact hk c hc

theorem memoryInv_nil (size : Nat) : MemoryInv size [] := ⟨List.Pairwise.nil, by simp⟩

theorem write_inv {size : Nat} {m : Memory} (h : MemoryInv size m) {i : Nat} (hi : i < size) (w : Word) :
    MemoryInv size (Memory.write m i w) :=
  ⟨write_wf h.canonical i w, fun c hc => (mem_write hc).elim (fun e => e ▸ hi) (h.bounded c)⟩

/-! ### The canonical form -/

/-- Below its first listed place a canonical array holds nothing. -/
theorem read_of_lt {m : Memory} {i : Nat} (h : ∀ c ∈ m, i < c.1) : Memory.read m i = none := by
  induction m with
  | nil => rfl
  | cons c m ih =>
    have hc := h c List.mem_cons_self
    simp only [Memory.read]
    rw [if_neg (by omega)]
    exact ih fun d hd => h d (List.mem_cons_of_mem _ hd)

/-- Canonical arrays that read alike are the same data. -/
theorem memory_ext {m m' : Memory} (h : Memory.wf m) (h' : Memory.wf m')
    (he : ∀ i, Memory.read m i = Memory.read m' i) : m = m' := by
  induction m generalizing m' with
  | nil =>
    cases m' with
    | nil => rfl
    | cons d m' => simpa [Memory.read] using he d.1
  | cons c m ih =>
    obtain ⟨hc, hm⟩ := List.pairwise_cons.1 h
    cases m' with
    | nil => simpa [Memory.read] using he c.1
    | cons d m' =>
      obtain ⟨hd, hm'⟩ := List.pairwise_cons.1 h'
      obtain ⟨i, v⟩ := c
      obtain ⟨j, w⟩ := d
      simp only at hc hd
      have hij : i = j := by
        rcases Nat.lt_trichotomy i j with hlt | heq | hlt
        · have := he i
          simp only [Memory.read, if_true, if_neg (Nat.ne_of_lt hlt)] at this
          rw [read_of_lt fun c hc' => hlt.trans (hd c hc')] at this
          exact nomatch this
        · exact heq
        · have := he j
          simp only [Memory.read, if_true, if_neg (Nat.ne_of_lt hlt)] at this
          rw [read_of_lt fun c hc' => hlt.trans (hc c hc')] at this
          exact nomatch this
      subst hij
      have hv : v = w := by simpa [Memory.read] using he i
      subst hv
      rw [ih hm hm' fun k => ?_]
      have := he k
      simp only [Memory.read] at this
      split at this
      · subst_vars; rw [read_of_lt hc, read_of_lt hd]
      · exact this

/-! ### Several writes -/

theorem writeAll_inv {size : Nat} {m : Memory} (h : MemoryInv size m) {cells : List (Nat × Word)}
    (hc : ∀ c ∈ cells, c.1 < size) : MemoryInv size (Memory.writeAll m cells) := by
  induction cells generalizing m with
  | nil => exact h
  | cons c cells ih =>
    exact ih (write_inv h (hc c List.mem_cons_self) _) fun d hd => hc d (List.mem_cons_of_mem _ hd)

/-- The writes of a block keep the canonical form. -/
theorem writeAll_wf {m : Memory} (h : Memory.wf m) (cells : List (Nat × Word)) : Memory.wf (Memory.writeAll m cells) := by
  induction cells generalizing m with
  | nil => exact h
  | cons c cells ih => exact ih (write_wf h _ _)

/-- A block of writes leaves every place not listed alone. -/
theorem read_writeAll_of_notMem (m : Memory) (idx : List Nat) (ws : List Word) {k : Nat} (hk : k ∉ idx) :
    Memory.read (Memory.writeAll m (idx.zip ws)) k = Memory.read m k := by
  induction idx generalizing m ws with
  | nil => rfl
  | cons i idx ih =>
    cases ws with
    | nil => rfl
    | cons w ws =>
      simp only [List.mem_cons, not_or] at hk
      simp only [List.zip_cons_cons, Memory.writeAll, ih _ _ hk.2, read_write, if_neg hk.1]

/-- A block of writes to distinct places leaves each word at its place. -/
theorem read_writeAll (m : Memory) {idx : List Nat} {ws : List Word} (hd : idx.Nodup) (hl : ws.length ≤ idx.length)
    {j : Nat} (hj : j < ws.length) :
    Memory.read (Memory.writeAll m (idx.zip ws)) (idx[j]'(by omega)) = some ws[j] := by
  induction idx generalizing m ws j with
  | nil => exact absurd hj (by simp only [List.length_nil] at hl; omega)
  | cons i idx ih =>
    cases ws with
    | nil => simp at hj
    | cons w ws =>
      obtain ⟨hi, hd⟩ := List.nodup_cons.1 hd
      simp only [List.zip_cons_cons, Memory.writeAll]
      cases j with
      | zero => simp [read_writeAll_of_notMem _ _ _ hi]
      | succ j => simpa using ih (Memory.write m i w) hd (by simpa using hl) (by simpa using hj)

/-! ### Drawing reads -/

theorem drawWord_written {m : Memory} {i : Nat} {w : Word} (h : Memory.read m i = some w) (k : Nat) :
    drawWord m i k = (w, k) := by simp [drawWord, h]

theorem drawWords_cons (m : Memory) (i : Nat) (idx : List Nat) (k : Nat) :
    drawWords m (i :: idx) k =
      ((drawWord m i k).1 :: (drawWords m idx (drawWord m i k).2).1, (drawWords m idx (drawWord m i k).2).2) := rfl

/-- What a drawing read of one place can answer. -/
theorem drawWord_reads (m : Memory) (i k : Nat) (v : Word) (h : Memory.read m i = some v) : (drawWord m i k).1 = v := by
  simp [drawWord, h]

/-- What a drawing read can answer: a reading of the places listed. -/
theorem drawWords_reads (m : Memory) (idx : List Nat) (k : Nat) : Reads m idx (drawWords m idx k).1 := by
  induction idx generalizing k with
  | nil => exact List.Forall₂.nil
  | cons i idx ih => exact List.Forall₂.cons (fun v h => drawWord_reads m i k v h) (ih _)

theorem drawWords_length (m : Memory) (idx : List Nat) (k : Nat) : (drawWords m idx k).1.length = idx.length :=
  (drawWords_reads m idx k).length_eq.symm

/-- A drawing read depends on the places only through what they hold. -/
theorem drawWords_congr {m m' : Memory} {idx idx' : List Nat}
    (h : idx.map (Memory.read m) = idx'.map (Memory.read m')) (k : Nat) : drawWords m idx k = drawWords m' idx' k := by
  induction idx generalizing idx' k with
  | nil => cases idx' <;> simp_all [drawWords]
  | cons i idx ih =>
    cases idx' with
    | nil => simp at h
    | cons i' idx' =>
      simp only [List.map_cons, List.cons.injEq] at h
      have : drawWord m i k = drawWord m' i' k := by simp [drawWord, h.1]
      simp [drawWords_cons, this, ih h.2]

/-- Reading written places makes no draw. -/
theorem drawWords_written {m : Memory} {idx : List Nat} {ws : List Word}
    (h : idx.map (Memory.read m) = ws.map some) (k : Nat) : drawWords m idx k = (ws, k) := by
  induction idx generalizing ws k with
  | nil => cases ws <;> simp_all [drawWords]
  | cons i idx ih =>
    cases ws with
    | nil => simp at h
    | cons w ws =>
      simp only [List.map_cons, List.cons.injEq] at h
      simp [drawWords_cons, drawWord_written h.1, ih h.2]

/-! ### Packet buffers -/

theorem holds_map {m : Memory} {ws : List Word} (h : Holds m ws) {n : Nat} (hn : n ≤ ws.length) :
    (List.range n).map (Memory.read m) = (ws.take n).map some := by
  apply List.ext_getElem
  · simp [hn]
  · intro j h₁ h₂
    simp at h₁
    simp [h j (by omega), List.getElem?_eq_getElem (show j < ws.length by omega)]

theorem drawWords_holds {m : Memory} {ws : List Word} (h : Holds m ws) {n : Nat} (hn : n ≤ ws.length) (k : Nat) :
    drawWords m (List.range n) k = (ws.take n, k) := drawWords_written (holds_map h hn) k

theorem drawWord_holds {m : Memory} {ws : List Word} (h : Holds m ws) {i : Nat} (hi : i < ws.length) (k : Nat) :
    drawWord m i k = (ws.getD i 0, k) :=
  drawWord_written (by simp [h i hi, List.getElem?_eq_getElem hi]) k

/-- Writing a whole packet leaves it in the buffer. -/
theorem packetWrite_holds {n : Nat} (m : Memory) {ws : List Word} (h : ws.length ≤ n) : Holds (packetWrite n m ws) ws := by
  intro i hi
  have := read_writeAll m (idx := List.range n) (ws := ws) List.nodup_range (by simpa) hi
  simpa [packetWrite, List.getElem?_eq_getElem hi] using this

theorem packetWrite_above (n : Nat) (m : Memory) (ws : List Word) {i : Nat} (hi : n ≤ i) :
    Memory.read (packetWrite n m ws) i = Memory.read m i :=
  read_writeAll_of_notMem _ _ _ (by simpa using hi)

/-- What a packet buffer reads as after a packet write. -/
theorem read_packetWrite (n : Nat) (m : Memory) (ws : List Word) (i : Nat) :
    Memory.read (packetWrite n m ws) i = if i < n ∧ i < ws.length then ws[i]? else Memory.read m i := by
  have hz : (List.range n).zip ws = (List.range (min n ws.length)).zip (ws.take n) := by
    apply List.ext_getElem
    · simp
    · intro j h₁ h₂; simp
  rw [packetWrite, hz]
  split
  · have := read_writeAll m (idx := List.range (min n ws.length)) (ws := ws.take n) List.nodup_range (by simp)
      (j := i) (by simp; omega)
    simp only [List.getElem_range, List.getElem_take] at this
    rw [this, List.getElem?_eq_getElem]
  · exact read_writeAll_of_notMem _ _ _ (by simp; omega)

theorem packetWrite_inv {n : Nat} {m : Memory} (h : MemoryInv n m) (ws : List Word) : MemoryInv n (packetWrite n m ws) :=
  writeAll_inv h fun c hc => by simpa using (List.of_mem_zip hc).1

end Sys2Proof.Machine
end

