-- ==== Sys2Proof/Laws/Ring.lean ====
section
/-! SUPPORT. The laws of the rings: the slots of a transfer, what appending, taking and clearing do to the contents, and
that each keeps the ring invariant (10_state.md R43, R45; 40_ring_buffer.md R151 to R154). -/

namespace Sys2Proof.Machine

/-! ### Slots -/

@[simp] theorem slots_length (cap start k : Nat) : (slots cap start k).length = k := by simp [slots]

@[simp] theorem slots_getElem (cap start k j : Nat) (h : j < (slots cap start k).length) :
    (slots cap start k)[j] = (start + j) % cap := by simp [slots]

theorem slots_lt {cap start k i : Nat} (hc : 0 < cap) (h : i ∈ slots cap start k) : i < cap := by
  obtain ⟨j, -, rfl⟩ := List.mem_map.1 h
  exact Nat.mod_lt _ hc

/-- A transfer depends on its start only modulo the capacity. -/
theorem slots_mod (cap start k : Nat) : slots cap (start % cap) k = slots cap start k := by
  simp [slots, Nat.add_mod]

/-- A transfer of `a + b` words is one of `a` words and then one of `b`. -/
theorem slots_add (cap start a b : Nat) : slots cap start (a + b) = slots cap start a ++ slots cap (start + a) b := by
  simp [slots, List.range_add, Nat.add_assoc]

/-- Below the capacity, indexes that differ have slots that differ. -/
theorem add_mod_inj {cap start a b : Nat} (ha : a < cap) (hb : b < cap)
    (h : (start + a) % cap = (start + b) % cap) : a = b := by
  have h' : a % cap = b % cap := Nat.ModEq.add_left_cancel' start h
  rwa [Nat.mod_eq_of_lt ha, Nat.mod_eq_of_lt hb] at h'

/-- A transfer of at most `CAP` words touches no slot twice. -/
theorem slots_nodup {cap start k : Nat} (h : k ≤ cap) : (slots cap start k).Nodup := by
  refine List.Nodup.map_on (fun a ha b hb => add_mod_inj ?_ ?_) List.nodup_range
  · exact (List.mem_range.1 ha).trans_le h
  · exact (List.mem_range.1 hb).trans_le h

/-- A ring transfer of `a` words and the next one of `b` share no slot while both fit. -/
theorem slots_disjoint {cap start a b : Nat} (h : a + b ≤ cap) :
    List.Disjoint (slots cap start a) (slots cap (start + a) b) := by
  have := slots_nodup (start := start) h
  rw [slots_add] at this
  exact List.disjoint_of_nodup_append this

/-! ### Append (R153) -/

section append

variable {cap : Nat} {r : Ring} {ws : List Word}

@[simp] theorem append_head : (r.append cap ws).head = r.head := rfl
@[simp] theorem append_tail : (r.append cap ws).tail = (r.tail + ws.length) % cap := rfl
@[simp] theorem append_count : (r.append cap ws).count = r.count + ws.length := rfl

/-- The written slots hold the words, in order. -/
theorem append_read (h : ws.length ≤ cap) {j : Nat} (hj : j < ws.length) :
    Memory.read (r.append cap ws).mem ((r.tail + j) % cap) = ws[j]? := by
  have := read_writeAll r.mem (idx := slots cap r.tail ws.length) (ws := ws) (slots_nodup h) (by simp) hj
  simpa [Ring.append, List.getElem?_eq_getElem hj] using this

/-- Every other slot is as before. -/
theorem append_read_other {k : Nat} (hk : k ∉ slots cap r.tail ws.length) :
    Memory.read (r.append cap ws).mem k = Memory.read r.mem k := read_writeAll_of_notMem _ _ _ hk

/-- `contents(b)` becomes `contents(b) ++ ws` (R153). -/
theorem append_contents (ht : r.tail = (r.head + r.count) % cap) (h : r.count + ws.length ≤ cap) :
    (r.append cap ws).contents cap = r.contents cap ++ ws.map some := by
  have htail : slots cap r.tail ws.length = slots cap (r.head + r.count) ws.length := by rw [ht, slots_mod]
  simp only [Ring.contents, append_head, append_count, slots_add, List.map_append]
  congr 1
  · refine List.map_congr_left fun k hk => append_read_other ?_
    rw [htail]
    exact fun hk' => slots_disjoint h hk hk'
  · rw [← htail]
    refine List.ext_getElem (by simp) fun j h₁ h₂ => ?_
    simp only [List.length_map, slots_length] at h₁
    simp [append_read (r := r) (cap := cap) (by omega) h₁]

/-- Appending what fits keeps the ring invariant. -/
theorem append_inv (hr : RingInv cap r) (hc : 0 < cap) (h : r.count + ws.length ≤ cap) :
    RingInv cap (r.append cap ws) where
  mem := writeAll_inv hr.mem fun c hc' => slots_lt hc (List.of_mem_zip hc').1
  count_le := h
  head_lt := hr.head_lt
  tail_lt := Nat.mod_lt _ hc
  tail_eq := by rw [append_tail, hr.tail_eq, append_head, append_count, Nat.mod_add_mod, Nat.add_assoc]
  written := by rw [append_contents hr.tail_eq h]; simp [hr.written]

end append

/-! ### Taking words from the head (R154) -/

section drop

variable {cap : Nat} {r : Ring} {k : Nat}

@[simp] theorem drop_mem : (r.drop cap k).mem = r.mem := rfl
@[simp] theorem drop_head : (r.drop cap k).head = (r.head + k) % cap := rfl
@[simp] theorem drop_tail : (r.drop cap k).tail = r.tail := rfl
@[simp] theorem drop_count : (r.drop cap k).count = r.count - k := rfl

@[simp] theorem contents_length : (r.contents cap).length = r.count := by simp [Ring.contents]

/-- The contents are what the first `k` slots hold, then the contents of the ring without them. -/
theorem contents_split (h : k ≤ r.count) :
    r.contents cap = (slots cap r.head k).map (Memory.read r.mem) ++ (r.drop cap k).contents cap := by
  obtain ⟨m, hm⟩ := Nat.exists_eq_add_of_le h
  simp only [Ring.contents, drop_head, drop_mem, drop_count, slots_mod]
  rw [hm, Nat.add_sub_cancel_left, slots_add, List.map_append]

/-- `contents(b)` becomes the rest (R154). -/
theorem drop_contents (h : k ≤ r.count) : (r.drop cap k).contents cap = (r.contents cap).drop k := by
  rw [contents_split h, List.drop_append_of_le_length (by simp)]
  simp

/-- Taking words that are there keeps the ring invariant. -/
theorem drop_inv (hr : RingInv cap r) (h : k ≤ r.count) : RingInv cap (r.drop cap k) where
  mem := hr.mem
  count_le := (Nat.sub_le _ _).trans hr.count_le
  head_lt := Nat.mod_lt _ (by have := hr.head_lt; omega)
  tail_lt := hr.tail_lt
  tail_eq := by
    rw [drop_tail, hr.tail_eq, drop_head, drop_count, Nat.mod_add_mod]
    congr 1; omega
  written := by
    rw [drop_contents h]
    exact fun hn => hr.written (List.mem_of_mem_drop hn)

/-- Contents all written are a list of Words. -/
theorem exists_words {l : List (Option Word)} (h : none ∉ l) : ∃ ws : List Word, l = ws.map some := by
  induction l with
  | nil => exact ⟨[], rfl⟩
  | cons x l ih =>
    simp only [List.mem_cons, not_or] at h
    obtain ⟨ws, rfl⟩ := ih h.2
    cases x with
    | none => exact absurd rfl h.1
    | some w => exact ⟨w :: ws, rfl⟩

/-- What `ring_pop` returns in a ring that meets its invariant: the oldest words, without a draw. -/
theorem popWords_eq (hr : RingInv cap r) (h : k ≤ r.count) (d : Nat) :
    ∃ ws : List Word, r.popWords cap k d = (ws, d) ∧ ws.length = k ∧
      r.contents cap = ws.map some ++ (r.drop cap k).contents cap := by
  have hsplit := contents_split (cap := cap) h
  obtain ⟨ws, hws⟩ := exists_words (l := (slots cap r.head k).map (Memory.read r.mem)) fun hn =>
    hr.written (by rw [hsplit]; exact List.mem_append_left _ hn)
  refine ⟨ws, drawWords_written hws d, ?_, hws ▸ hsplit⟩
  simpa using (congrArg List.length hws).symm

theorem popWords_length (d : Nat) : (r.popWords cap k d).1.length = k := by
  simp [Ring.popWords, drawWords_length]

/-- `ring_pop` returns the same words from rings with the same contents. -/
theorem popWords_congr {r' : Ring} (hc : r.contents cap = r'.contents cap) (h : k ≤ r.count) (d : Nat) :
    r.popWords cap k d = r'.popWords cap k d := by
  have hlen : r.count = r'.count := by simpa using congrArg List.length hc
  refine drawWords_congr ?_ d
  rw [contents_split h, contents_split (r := r') (hlen ▸ h)] at hc
  exact List.append_inj_left hc (by simp)

end drop

/-- Occupancy and free space add up to the capacity (R44). -/
theorem count_add_free {cap : Nat} {r : Ring} (hr : RingInv cap r) : r.count + r.free cap = cap := by
  have := hr.count_le
  simp only [Ring.free]; omega

/-! ### Clearing (R180) -/

@[simp] theorem clear_mem (r : Ring) : r.clear.mem = r.mem := rfl
@[simp] theorem clear_contents (cap : Nat) (r : Ring) : r.clear.contents cap = [] := by
  simp [Ring.contents, Ring.clear, slots]

theorem clear_inv {cap : Nat} {r : Ring} (hr : RingInv cap r) : RingInv cap r.clear where
  mem := hr.mem
  count_le := Nat.zero_le _
  head_lt := by have := hr.head_lt; simp only [Ring.clear]; omega
  tail_lt := by have := hr.head_lt; simp only [Ring.clear]; omega
  tail_eq := by simp [Ring.clear]
  written := by simp

theorem empty_inv {cap : Nat} (h : 0 < cap) : RingInv cap Ring.empty where
  mem := memoryInv_nil _
  count_le := Nat.zero_le _
  head_lt := h
  tail_lt := h
  tail_eq := by simp [Ring.empty]
  written := by simp [Ring.contents, Ring.empty, slots]

end Sys2Proof.Machine
end

