-- ==== Sys2Proof/Laws/State.lean ====
section
/-! SUPPORT. One lemma per field per update of State. -/

namespace Sys2Proof.Machine

variable (s : State) (b b' : RingSel) (p p' : PktSel) (r : Ring) (m : Memory) (st : Status) (ws : List Word)

/-! ### setRing -/

@[simp] theorem setRing_cfg : (s.setRing b r).cfg = s.cfg := by cases b <;> rfl
@[simp] theorem setRing_input : (s.setRing b r).input = s.input := by cases b <;> rfl
@[simp] theorem setRing_output : (s.setRing b r).output = s.output := by cases b <;> rfl
@[simp] theorem setRing_draws : (s.setRing b r).draws = s.draws := by cases b <;> rfl
@[simp] theorem setRing_pkt : (s.setRing b r).pkt p = s.pkt p := by cases b <;> cases p <;> rfl
@[simp] theorem setRing_ring : (s.setRing b r).ring b' = if b' = b then r else s.ring b' := by
  cases b <;> cases b' <;> rfl
@[simp] theorem setRing_self : s.setRing b (s.ring b) = s := by cases b <;> rfl
@[simp] theorem setRing_txRing : (s.setRing b r).txRing = if b = .tx then r else s.txRing := by cases b <;> rfl
@[simp] theorem setRing_rxRing : (s.setRing b r).rxRing = if b = .rx then r else s.rxRing := by cases b <;> rfl
@[simp] theorem setRing_txp : (s.setRing b r).txp = s.txp := by cases b <;> rfl
@[simp] theorem setRing_rxp : (s.setRing b r).rxp = s.rxp := by cases b <;> rfl
@[simp] theorem ring_tx : s.ring .tx = s.txRing := rfl
@[simp] theorem ring_rx : s.ring .rx = s.rxRing := rfl

/-! ### setPkt -/

@[simp] theorem setPkt_cfg : (s.setPkt p m).cfg = s.cfg := by cases p <;> rfl
@[simp] theorem setPkt_input : (s.setPkt p m).input = s.input := by cases p <;> rfl
@[simp] theorem setPkt_output : (s.setPkt p m).output = s.output := by cases p <;> rfl
@[simp] theorem setPkt_draws : (s.setPkt p m).draws = s.draws := by cases p <;> rfl
@[simp] theorem setPkt_ring : (s.setPkt p m).ring b = s.ring b := by cases p <;> cases b <;> rfl
@[simp] theorem setPkt_pkt : (s.setPkt p m).pkt p' = if p' = p then m else s.pkt p' := by
  cases p <;> cases p' <;> rfl
@[simp] theorem setPkt_setPkt (m' : Memory) : (s.setPkt p m).setPkt p m' = s.setPkt p m' := by cases p <;> rfl
@[simp] theorem setPkt_self : s.setPkt p (s.pkt p) = s := by cases p <;> rfl
@[simp] theorem setPkt_txRing : (s.setPkt p m).txRing = s.txRing := by cases p <;> rfl
@[simp] theorem setPkt_rxRing : (s.setPkt p m).rxRing = s.rxRing := by cases p <;> rfl
@[simp] theorem setPkt_txp : (s.setPkt p m).txp = if p = .txp then m else s.txp := by cases p <;> rfl
@[simp] theorem setPkt_rxp : (s.setPkt p m).rxp = if p = .rxp then m else s.rxp := by cases p <;> rfl
@[simp] theorem pkt_txp : s.pkt .txp = s.txp := rfl
@[simp] theorem pkt_rxp : s.pkt .rxp = s.rxp := rfl

/-! ### Writing the other fields past an accessor -/

@[simp] theorem setDraws_ring (d : Nat) : ({ s with draws := d } : State).ring b = s.ring b := by cases b <;> rfl
@[simp] theorem setDraws_pkt (d : Nat) : ({ s with draws := d } : State).pkt p = s.pkt p := by cases p <;> rfl
@[simp] theorem setOutput_ring (o : List Word) : ({ s with output := o } : State).ring b = s.ring b := by
  cases b <;> rfl
@[simp] theorem setOutput_pkt (o : List Word) : ({ s with output := o } : State).pkt p = s.pkt p := by
  cases p <;> rfl
@[simp] theorem setInput_ring (o : List Word) : ({ s with input := o } : State).ring b = s.ring b := by
  cases b <;> rfl
@[simp] theorem setInput_pkt (o : List Word) : ({ s with input := o } : State).pkt p = s.pkt p := by
  cases p <;> rfl
@[simp] theorem setOutputDraws_ring (o : List Word) (d : Nat) :
    ({ s with output := o, draws := d } : State).ring b = s.ring b := by cases b <;> rfl
@[simp] theorem setOutputDraws_pkt (o : List Word) (d : Nat) :
    ({ s with output := o, draws := d } : State).pkt p = s.pkt p := by cases p <;> rfl

/-! ### respond -/

@[simp] theorem respond_cfg : (s.respond st ws).cfg = s.cfg := rfl
@[simp] theorem respond_input : (s.respond st ws).input = s.input := rfl
@[simp] theorem respond_output : (s.respond st ws).output = s.output ++ statusCode st :: ws := rfl
@[simp] theorem respond_draws : (s.respond st ws).draws = s.draws := rfl
@[simp] theorem respond_txRing : (s.respond st ws).txRing = s.txRing := rfl
@[simp] theorem respond_rxRing : (s.respond st ws).rxRing = s.rxRing := rfl
@[simp] theorem respond_txp : (s.respond st ws).txp = s.txp := rfl
@[simp] theorem respond_rxp : (s.respond st ws).rxp = s.rxp := rfl
@[simp] theorem respond_ring : (s.respond st ws).ring b = s.ring b := by cases b <;> rfl
@[simp] theorem respond_pkt : (s.respond st ws).pkt p = s.pkt p := by cases p <;> rfl

/-! ### takeInput -/

@[simp] theorem takeInput_cfg : (s.takeInput ws).cfg = s.cfg := rfl
@[simp] theorem takeInput_input : (s.takeInput ws).input = ws := rfl
@[simp] theorem takeInput_output : (s.takeInput ws).output = s.output := rfl
@[simp] theorem takeInput_draws : (s.takeInput ws).draws = s.draws := rfl
@[simp] theorem takeInput_txRing : (s.takeInput ws).txRing = s.txRing := rfl
@[simp] theorem takeInput_rxRing : (s.takeInput ws).rxRing = s.rxRing := rfl
@[simp] theorem takeInput_txp : (s.takeInput ws).txp = s.txp := rfl
@[simp] theorem takeInput_rxp : (s.takeInput ws).rxp = s.rxp := rfl
@[simp] theorem takeInput_ring : (s.takeInput ws).ring b = s.ring b := by cases b <;> rfl
@[simp] theorem takeInput_pkt : (s.takeInput ws).pkt p = s.pkt p := by cases p <;> rfl

/-! ### commit and hold -/

theorem commit_legal {c : Config} (h : c.Legal) (t : State) : commit c t = .next t := if_pos h

theorem commit_illegal {c : Config} (h : ¬ c.Legal) (t : State) : commit c t = .refused .illegalConfig := if_neg h

/-- What a commit can do: a next state only in a legal configuration, and then exactly the state given. -/
theorem commit_eq_next {c : Config} {t u : State} : commit c t = .next u ↔ c.Legal ∧ t = u := by
  by_cases h : c.Legal
  · rw [commit_legal h]; exact ⟨fun e => ⟨h, Host.Outcome.next.inj e⟩, fun e => e.2 ▸ rfl⟩
  · rw [commit_illegal h]; exact ⟨(fun e => nomatch e), fun e => absurd e.1 h⟩

theorem hold_legal {s : State} (h : s.cfg.Legal) (why : Refusal) : hold why s = .refused why := if_pos h

theorem hold_illegal {s : State} (h : ¬ s.cfg.Legal) (why : Refusal) : hold why s = .refused .illegalConfig := if_neg h

end Sys2Proof.Machine
end

