-- ==== Sys2Proof/Laws/Exec.lean ====
section
/-! SUPPORT. What each shared operation and each meaning can do, said once: the state a meaning leads to in a legal
configuration, as updates of named parts followed by `respond`, for which Laws/State.lean has the simp lemmas. -/

namespace Sys2Proof.Machine

/-! ### Legal and illegal configurations -/

/-- In an illegal configuration no command has a meaning. -/
theorem exec_illegalConfig {s : State} (h : ¬ s.cfg.Legal) (i : Instr) : exec i s = .refused .illegalConfig := by
  cases i <;> exact commit_illegal h _

/-- A next state shows a legal configuration. -/
theorem legal_of_next {i : Instr} {s t : State} (h : exec i s = .next t) : s.cfg.Legal := by
  by_contra hl
  rw [exec_illegalConfig hl] at h
  exact nomatch h

/-- Different statuses have different codes (R115). -/
theorem statusCode_inj {a b : Status} (h : statusCode a = statusCode b) : a = b := by
  revert h; cases a <;> cases b <;> decide

/-- The response of a command determines its status and its result words. -/
theorem response_inj {o xs ys : List Word} {a b : Status} (h : o ++ statusCode a :: xs = o ++ statusCode b :: ys) :
    a = b ∧ xs = ys := by
  obtain ⟨h1, h2⟩ := List.cons.inj (List.append_cancel_left h)
  exact ⟨statusCode_inj h1, h2⟩

/-! ### Reading packet buffers -/

/-- What reading packet words can answer: a reading of those words, the state changed in its draw count alone. -/
theorem readPkt_spec (s : State) (p : PktSel) (idx : List Nat) :
    ∃ ws d, s.readPkt p idx = (ws, { s with draws := d }) ∧ Reads (s.pkt p) idx ws :=
  ⟨_, _, rfl, drawWords_reads _ _ _⟩

/-- Reading a packet that is wholly written gives its words and leaves the state as it was. -/
theorem readPkt_holds {s : State} {p : PktSel} {ps : List Word} (h : Holds (s.pkt p) ps) {n : Nat} (hn : n ≤ ps.length) :
    s.readPkt p (List.range n) = (ps.take n, s) := by
  simp [State.readPkt, drawWords_holds h hn]

theorem readPktWord_holds {s : State} {p : PktSel} {ps : List Word} (h : Holds (s.pkt p) ps) {i : Nat}
    (hi : i < ps.length) : s.readPktWord p i = (ps.getD i 0, s) := by
  simp only [State.readPktWord, drawWord_holds h hi]

/-- What the comparison of PKT.VERIFY and PKT.VFYP can answer. -/
theorem checkPkt_spec (s : State) (p : PktSel) :
    ∃ ws last id d, s.checkPkt p = (decide (checksum s.cfg ws = last), id, { s with draws := d }) ∧
      Reads (s.pkt p) (List.range (s.cfg.N - 1)) ws ∧ Reads (s.pkt p) [s.cfg.N - 1, 0] [last, id] := by
  refine ⟨(drawWords (s.pkt p) (List.range (s.cfg.N - 1)) s.draws).1,
    (drawWord (s.pkt p) (s.cfg.N - 1) (drawWords (s.pkt p) (List.range (s.cfg.N - 1)) s.draws).2).1,
    (drawWord (s.pkt p) 0 (drawWord (s.pkt p) (s.cfg.N - 1)
      (drawWords (s.pkt p) (List.range (s.cfg.N - 1)) s.draws).2).2).1,
    (drawWord (s.pkt p) 0 (drawWord (s.pkt p) (s.cfg.N - 1)
      (drawWords (s.pkt p) (List.range (s.cfg.N - 1)) s.draws).2).2).2, ?_, drawWords_reads _ _ _,
    .cons (drawWord_reads _ _ _) (.cons (drawWord_reads _ _ _) .nil)⟩
  cases p <;> rfl

/-- The comparison over a written packet: its validity and its identifier, nothing changed. -/
theorem checkPkt_holds {s : State} {p : PktSel} {ps : List Word} (hl : s.cfg.Legal) (h : s.PktHolds p ps) :
    s.checkPkt p = (decide (validPacket s.cfg ps), ps.getD 0 0, s) := by
  obtain ⟨hn, h⟩ := h
  have := hl.1
  rw [State.checkPkt, readPkt_holds h (by omega)]
  simp only [readPktWord_holds h (show s.cfg.N - 1 < ps.length by omega),
    readPktWord_holds h (show 0 < ps.length by omega)]

/-! ### Ring buffer commands -/

theorem exec_rbAppend_fits {s : State} {b : RingSel} {ws : List Word} (hl : s.cfg.Legal)
    (h : ws.length ≤ (s.ring b).free s.cfg.cap) :
    exec (.rbAppend b ws) s =
      .next ((s.setRing b ((s.ring b).append s.cfg.cap ws)).respond .ok []) := by
  rw [exec, execRbAppend, commit_legal hl, if_neg (by omega)]

theorem exec_rbAppend_overflow {s : State} {b : RingSel} {ws : List Word} (hl : s.cfg.Legal)
    (h : (s.ring b).free s.cfg.cap < ws.length) :
    exec (.rbAppend b ws) s = .next (s.respond .overflow []) := by
  rw [exec, execRbAppend, commit_legal hl, if_pos h]

/-- RB.CONSUME of words that are there, in a ring that meets its invariant. -/
theorem exec_rbConsume_fits {s : State} {b : RingSel} {cnt : BitVec 16} (hl : s.cfg.Legal)
    (hr : RingInv s.cfg.cap (s.ring b)) (h : cnt.toNat ≤ (s.ring b).count) :
    ∃ ws : List Word, ws.length = cnt.toNat ∧
      (s.ring b).contents s.cfg.cap = ws.map some ++ ((s.ring b).drop s.cfg.cap cnt.toNat).contents s.cfg.cap ∧
      exec (.rbConsume b cnt) s =
        .next ((s.setRing b ((s.ring b).drop s.cfg.cap cnt.toNat)).respond .ok ws) := by
  obtain ⟨ws, hw, hlen, hc⟩ := popWords_eq hr h s.draws
  refine ⟨ws, hlen, hc, ?_⟩
  rw [exec, execRbConsume, commit_legal hl, if_neg (by omega), hw]

/-- RB.CONSUME of words that are there, in any ring: as many words as asked for. -/
theorem exec_rbConsume_next {s : State} {b : RingSel} {cnt : BitVec 16} (hl : s.cfg.Legal)
    (h : cnt.toNat ≤ (s.ring b).count) :
    exec (.rbConsume b cnt) s =
      .next (({ s with draws := ((s.ring b).popWords s.cfg.cap cnt.toNat s.draws).2 }.setRing b
        ((s.ring b).drop s.cfg.cap cnt.toNat)).respond .ok
          ((s.ring b).popWords s.cfg.cap cnt.toNat s.draws).1) := by
  rw [exec, execRbConsume, commit_legal hl, if_neg (by omega)]

theorem exec_rbConsume_underflow {s : State} {b : RingSel} {cnt : BitVec 16} (hl : s.cfg.Legal)
    (h : (s.ring b).count < cnt.toNat) :
    exec (.rbConsume b cnt) s = .next (s.respond .underflow []) := by
  rw [exec, execRbConsume, commit_legal hl, if_pos h]

theorem exec_rbOcc {s : State} (hl : s.cfg.Legal) (b : RingSel) :
    exec (.rbOcc b) s = .next (s.respond .ok [countWord (s.ring b).count]) := commit_legal hl _

theorem exec_rbFree {s : State} (hl : s.cfg.Legal) (b : RingSel) :
    exec (.rbFree b) s = .next (s.respond .ok [countWord ((s.ring b).free s.cfg.cap)]) :=
  commit_legal hl _

theorem exec_rbClear {s : State} (hl : s.cfg.Legal) (b : RingSel) :
    exec (.rbClear b) s = .next ((s.setRing b (s.ring b).clear).respond .ok []) := commit_legal hl _

/-! ### Checksum commands -/

/-- What PKT.CSUM can do: the checksum of a reading of words 0 to N-2 goes into word N-1. -/
theorem exec_pktCsum {s : State} (hl : s.cfg.Legal) (p : PktSel) :
    ∃ ws d, Reads (s.pkt p) (List.range (s.cfg.N - 1)) ws ∧
      exec (.pktCsum p) s = .next (({ s with draws := d }.setPkt p
        (Memory.write (s.pkt p) (s.cfg.N - 1) (checksum s.cfg ws))).respond .ok []) := by
  obtain ⟨ws, d, he, hr⟩ := readPkt_spec s p (List.range (s.cfg.N - 1))
  refine ⟨ws, d, hr, ?_⟩
  rw [exec, execPktCsum, he]
  simp only [commit_legal hl, setDraws_pkt]

/-- PKT.CSUM of a packet whose words 0 to N-2 are written. -/
theorem exec_pktCsum_holds {s : State} {p : PktSel} {ws : List Word} (hl : s.cfg.Legal) (hn : ws.length = s.cfg.N - 1)
    (h : Holds (s.pkt p) ws) :
    exec (.pktCsum p) s =
      .next ((s.setPkt p (Memory.write (s.pkt p) (s.cfg.N - 1) (checksum s.cfg ws))).respond .ok []) := by
  rw [exec, execPktCsum, readPkt_holds h hn.ge, ← hn, List.take_length]
  simp only [commit_legal hl]

/-- What PKT.VERIFY and PKT.VFYP can do. -/
theorem exec_pktVerify_vfyp {s : State} (hl : s.cfg.Legal) (p : PktSel) :
    ∃ ws last id d, Reads (s.pkt p) (List.range (s.cfg.N - 1)) ws ∧ Reads (s.pkt p) [s.cfg.N - 1, 0] [last, id] ∧
      exec (.pktVerify p) s = .next (({ s with draws := d } : State).respond
        (matchStatus (decide (checksum s.cfg ws = last))) [id, okFlag (decide (checksum s.cfg ws = last))]) ∧
      exec (.pktVfyp p) s = .next (({ s with draws := d } : State).respond
        (matchStatus (decide (checksum s.cfg ws = last))) [id, errorFlag (decide (checksum s.cfg ws = last))]) := by
  obtain ⟨ws, last, id, d, he, hr, hr'⟩ := checkPkt_spec s p
  refine ⟨ws, last, id, d, hr, hr', ?_, ?_⟩
  · rw [exec, execPktVerify, he]; exact commit_legal hl _
  · rw [exec, execPktVfyp, he]; exact commit_legal hl _

theorem exec_pktVerify_holds {s : State} {p : PktSel} {ps : List Word} (hl : s.cfg.Legal) (h : s.PktHolds p ps) :
    exec (.pktVerify p) s = .next (s.respond (matchStatus (decide (validPacket s.cfg ps)))
      [ps.getD 0 0, okFlag (decide (validPacket s.cfg ps))]) := by
  rw [exec, execPktVerify, checkPkt_holds hl h]; exact commit_legal hl _

theorem exec_pktVfyp_holds {s : State} {p : PktSel} {ps : List Word} (hl : s.cfg.Legal) (h : s.PktHolds p ps) :
    exec (.pktVfyp p) s = .next (s.respond (matchStatus (decide (validPacket s.cfg ps)))
      [ps.getD 0 0, errorFlag (decide (validPacket s.cfg ps))]) := by
  rw [exec, execPktVfyp, checkPkt_holds hl h]; exact commit_legal hl _

/-- The words of a comparison's response, by its outcome. -/
theorem matchStatus_words (q : Prop) [Decidable q] (id : Word) :
    statusCode (matchStatus (decide q)) :: [id, okFlag (decide q)] = (if q then [0, id, 1] else [1, id, 0]) ∧
    statusCode (matchStatus (decide q)) :: [id, errorFlag (decide q)] = (if q then [0, id, 0] else [1, id, 1]) := by
  by_cases h : q <;> simp [h, matchStatus, okFlag, errorFlag, statusCode]

/-! ### Packet framer -/

theorem exec_pktWrite {s : State} (hl : s.cfg.Legal) (p : PktSel) (ws : List Word) :
    exec (.pktWrite p ws) s =
      .next ((s.setPkt p (packetWrite s.cfg.N (s.pkt p) ws)).respond .ok []) := commit_legal hl _

/-- What PKT.READ can do: it answers a reading of the N words. -/
theorem exec_pktRead {s : State} (hl : s.cfg.Legal) (p : PktSel) :
    ∃ ws d, Reads (s.pkt p) (List.range s.cfg.N) ws ∧
      exec (.pktRead p) s = .next (({ s with draws := d } : State).respond .ok ws) := by
  obtain ⟨ws, d, he, hr⟩ := readPkt_spec s p (List.range s.cfg.N)
  refine ⟨ws, d, hr, ?_⟩
  rw [exec, execPktRead, he]
  exact commit_legal hl _

theorem exec_pktRead_holds {s : State} {p : PktSel} {ps : List Word} (hl : s.cfg.Legal) (h : s.PktHolds p ps) :
    exec (.pktRead p) s = .next (s.respond .ok ps) := by
  rw [exec, execPktRead, readPkt_holds h.2 h.1.ge, ← h.1, List.take_length]
  exact commit_legal hl _

theorem packetBody_length {n : Nat} (id : Word) {ws : List Word} (hn : 3 ≤ n) (h : ws.length ≤ n - 3) :
    (packetBody n id ws).length = n - 1 := by
  simp [packetBody]; omega

theorem buildPacket_length {c : Config} (id : Word) {ws : List Word} (hl : c.Legal) (h : ws.length ≤ c.N - 3) :
    (buildPacket c id ws).length = c.N := by
  have := hl.1
  rw [buildPacket, List.length_append, packetBody_length id hl.1 h, List.length_singleton]; omega

/-- The words of a constructed packet (R130, R260): the identifier, the length, the payload, the padding, the checksum
of all but the last. -/
theorem buildPacket_words {c : Config} {id : Word} {ws : List Word} (hl : c.Legal) (h : ws.length ≤ c.N - 3) :
    (buildPacket c id ws)[0]? = some id ∧ (buildPacket c id ws)[1]? = some (countWord ws.length) ∧
    (∀ j < ws.length, (buildPacket c id ws)[2 + j]? = ws[j]?) ∧
    (∀ j, 2 + ws.length ≤ j → j ≤ c.N - 2 → (buildPacket c id ws)[j]? = some Config.sentinel) ∧
    (buildPacket c id ws)[c.N - 1]? = some (checksum c ((buildPacket c id ws).take (c.N - 1))) := by
  have hN := hl.1
  refine ⟨rfl, rfl, fun j hj => ?_, fun j h1 h2 => ?_, ?_⟩
  · rw [Nat.add_comm]
    simp only [buildPacket, packetBody, List.cons_append, List.getElem?_cons_succ, List.append_assoc]
    rw [List.getElem?_append_left hj]
  · obtain ⟨k, rfl⟩ := Nat.exists_eq_add_of_le h1
    rw [Nat.add_assoc, Nat.add_comm 2]
    simp only [buildPacket, packetBody, List.cons_append, List.getElem?_cons_succ, List.append_assoc]
    rw [List.getElem?_append_right (by omega), List.getElem?_append_left (by simp; omega)]
    simp [List.getElem?_replicate]; omega
  · have e := packetBody_length id hN h
    have : (buildPacket c id ws).take (c.N - 1) = packetBody c.N id ws := by
      rw [buildPacket, List.take_append_of_le_length (by omega), List.take_of_length_le (by omega)]
    rw [this, buildPacket, List.getElem?_append_right (by omega), e]
    simp

theorem txCount_le (s : State) : txCount s ≤ s.txRing.count ∧ txCount s ≤ s.cfg.N - 3 :=
  ⟨Nat.min_le_left _ _, Nat.min_le_right _ _⟩

/-- TX.BUILD from a ring that meets its invariant. -/
theorem exec_txBuild {s : State} (hl : s.cfg.Legal) (hr : RingInv s.cfg.cap s.txRing) (id : Word) :
    ∃ ws : List Word, ws.length = txCount s ∧
      s.txRing.contents s.cfg.cap = ws.map some ++ (s.txRing.drop s.cfg.cap (txCount s)).contents s.cfg.cap ∧
      exec (.txBuild id) s = .next (((s.setRing .tx (s.txRing.drop s.cfg.cap (txCount s))).setPkt .txp
        (packetWrite s.cfg.N s.txp (buildPacket s.cfg id ws))).respond .ok [countWord (txCount s)]) := by
  obtain ⟨ws, hw, hlen, hc⟩ := popWords_eq hr (txCount_le s).1 s.draws
  refine ⟨ws, hlen, hc, ?_⟩
  rw [exec, execTxBuild, hw]
  exact commit_legal hl _

/-- TX.BUILD from any ring. -/
theorem exec_txBuild_next {s : State} (hl : s.cfg.Legal) (id : Word) :
    exec (.txBuild id) s =
      .next ((({ s with draws := (s.txRing.popWords s.cfg.cap (txCount s) s.draws).2 }.setRing .tx
          (s.txRing.drop s.cfg.cap (txCount s))).setPkt .txp
        (packetWrite s.cfg.N s.txp (buildPacket s.cfg id
          (s.txRing.popWords s.cfg.cap (txCount s) s.draws).1))).respond .ok [countWord (txCount s)]) := commit_legal hl _

/-- The verdict of RX.PARSE: the four cases exclude each other (R281). -/
theorem rxVerdict_cases (c : Config) (free : Nat) (ps : List Word) :
    (¬ validPacket c ps ∧ rxVerdict c free ps = .csumMismatch) ∨
    (validPacket c ps ∧ c.N - 3 < packetLength ps ∧ rxVerdict c free ps = .malformedLength) ∨
    (validPacket c ps ∧ packetLength ps ≤ c.N - 3 ∧ free < packetLength ps ∧ rxVerdict c free ps = .overflow) ∨
    (validPacket c ps ∧ packetLength ps ≤ c.N - 3 ∧ packetLength ps ≤ free ∧ rxVerdict c free ps = .ok) := by
  unfold rxVerdict
  by_cases h1 : validPacket c ps
  · rw [if_neg (not_not.2 h1)]
    by_cases h2 : c.N - 3 < packetLength ps
    · rw [if_pos h2]; exact .inr (.inl ⟨h1, h2, rfl⟩)
    · rw [if_neg h2]
      by_cases h3 : free < packetLength ps
      · rw [if_pos h3]; exact .inr (.inr (.inl ⟨h1, by omega, h3, rfl⟩))
      · rw [if_neg h3]; exact .inr (.inr (.inr ⟨h1, by omega, by omega, rfl⟩))
  · rw [if_pos h1]; exact .inl ⟨h1, rfl⟩

/-- What RX.PARSE can do, on some reading `ps` of the packet buffer. -/
theorem exec_rxParse {s : State} (hl : s.cfg.Legal) :
    ∃ ps d, Reads s.rxp (List.range s.cfg.N) ps ∧ ps = (drawWords s.rxp (List.range s.cfg.N) s.draws).1 ∧
      d = (drawWords s.rxp (List.range s.cfg.N) s.draws).2 ∧
      exec .rxParse s = .next ((({ s with draws := d } : State).setRing .rx
        (if rxVerdict s.cfg (s.rxRing.free s.cfg.cap) ps = .ok
          then s.rxRing.append s.cfg.cap (rxPayload ps) else s.rxRing)).respond
        (rxVerdict s.cfg (s.rxRing.free s.cfg.cap) ps)
        [successFlag (rxVerdict s.cfg (s.rxRing.free s.cfg.cap) ps)]) := by
  refine ⟨_, _, drawWords_reads _ _ _, rfl, rfl, ?_⟩
  rw [exec, execRxParse, State.readPkt]
  exact commit_legal hl _

/-- RX.PARSE of a written packet. -/
theorem exec_rxParse_holds {s : State} {ps : List Word} (hl : s.cfg.Legal) (h : s.PktHolds .rxp ps) :
    exec .rxParse s = .next ((s.setRing .rx
      (if rxVerdict s.cfg (s.rxRing.free s.cfg.cap) ps = .ok
        then s.rxRing.append s.cfg.cap (rxPayload ps) else s.rxRing)).respond
      (rxVerdict s.cfg (s.rxRing.free s.cfg.cap) ps)
      [successFlag (rxVerdict s.cfg (s.rxRing.free s.cfg.cap) ps)]) := by
  obtain ⟨qs, d, -, hq, hd, he⟩ := exec_rxParse hl
  have := drawWords_holds h.2 h.1.ge s.draws
  rw [← h.1, List.take_length, pkt_rxp] at this
  rw [← h.1, this] at hq hd
  rw [he, hq, hd]

theorem rxPayload_length {c : Config} {ps : List Word} (hn : ps.length = c.N) (hl : c.Legal)
    (h : packetLength ps ≤ c.N - 3) : (rxPayload ps).length = packetLength ps := by
  have := hl.1
  simp only [rxPayload, packetLength, List.length_take, List.length_drop] at h ⊢
  omega

/-! ### System -/

theorem exec_cfg {s : State} (hl : s.cfg.Legal) :
    exec .cfg s = .next (s.respond .ok [countWord s.cfg.cap, s.cfg.packetWords]) := commit_legal hl _

theorem execIllegal_next {s : State} (hl : s.cfg.Legal) (why : IllegalReason) :
    execIllegal why s = .next (s.respond .illegal []) := commit_legal hl _

theorem countWord_toNat {k : Nat} (h : k < 2 ^ 32) : (countWord k).toNat = k := by
  rw [countWord, BitVec.toNat_ofNat, Nat.mod_eq_of_lt h]

end Sys2Proof.Machine
end

