-- ==== Sys2Proof/Laws/PerInstr.lean ====
section
/-! SUPPORT. One family of statements about each constructor of Instr: its command word is a legal word whose opcode row it
matches, and it decodes to the command's head (30_encoding.md R116, R118). -/

namespace Sys2Proof.Laws.CommandWord

open Sys2Proof

/-- The command word of `i` matches the row of its own opcode and decodes to its head. -/
def Statement (i : Instr) : Prop :=
  i.head.op.row.has i.head.word = true ∧ decodeHead i.head.word = .legal i.head

theorem of_head (i : Instr) : Statement i := ⟨row_has_word (head_valid i), decodeHead_word (head_valid i)⟩

theorem rbAppend (b : RingSel) (ws : List Word) : Statement (.rbAppend b ws) := of_head _
theorem rbConsume (b : RingSel) (cnt : BitVec 16) : Statement (.rbConsume b cnt) := of_head _
theorem rbOcc (b : RingSel) : Statement (.rbOcc b) := of_head _
theorem rbFree (b : RingSel) : Statement (.rbFree b) := of_head _
theorem rbClear (b : RingSel) : Statement (.rbClear b) := of_head _
theorem pktWrite (p : PktSel) (ws : List Word) : Statement (.pktWrite p ws) := of_head _
theorem pktRead (p : PktSel) : Statement (.pktRead p) := of_head _
theorem pktCsum (p : PktSel) : Statement (.pktCsum p) := of_head _
theorem pktVerify (p : PktSel) : Statement (.pktVerify p) := of_head _
theorem pktVfyp (p : PktSel) : Statement (.pktVfyp p) := of_head _
theorem txBuild (id : Word) : Statement (.txBuild id) := of_head _
theorem rxParse : Statement (.rxParse) := of_head _
theorem cfg : Statement (.cfg) := of_head _

end Sys2Proof.Laws.CommandWord
end

