-- ==== Sys2Proof/Tests/Slice0.lean ====
section
/-! SUPPORT. The model's own tests. Every expected value is the spec's: a vector of 95_test_vectors.md (V-...), an example
of a rule, or a word written out from 30_encoding.md R110 and R116. -/

namespace Sys2Proof.Tests

open Sys2Proof Sys2Proof.Machine

/-! ### Helpers -/

/-- The default build of the vectors with another `CAP` and `N` (95_test_vectors.md). -/
def build (cap : Nat) (n : Word) : Config := { Config.default with cap := cap, packetWords := n }

/-- Storage holding `ws` from place 0. -/
def stored (ws : List Word) : Memory := (List.range ws.length).zip ws

/-- A ring holding `ws` at slots `start, start+1, ...` with `head = start`, below the end of its storage. -/
def ringFrom (start : Nat) (ws : List Word) (tail : Nat) : Ring :=
  { mem := (List.range' start ws.length).zip ws, head := start, tail := tail, count := ws.length }

/-- A reset core of the build with `input` waiting. -/
def given (cap : Nat) (n : Word) (input : List Word) : State := hostSend (State.resetWith (build cap n)) input

/-- A value of the state a step leads to. -/
def after {α : Type} (o : Host.Outcome State Fault Refusal) (f : State → α) : Option α :=
  match o with
  | .next s => some (f s)
  | .fault _ => none
  | .refused _ => none

/-- The reason a step is refused for. -/
def refusalOf (o : Host.Outcome State Fault Refusal) : Option Refusal :=
  match o with
  | .next _ => none
  | .fault _ => none
  | .refused r => some r

/-- The words of the source's section 8.7 packet, and of the packet of V-RX-2. -/
def packet87 : List Word := [0xBEEF, 5, 1, 2, 3, 4, 5, 0xDEADBEEF, 0xDEADBEEF, 0x5A9A0832]
def packet1234 : List Word := [0x1234, 7, 1, 2, 3, 4, 5, 6, 7, 0x0C1A006A]

/-! ### Ill-formed terms -/

theorem test_wellFormed_refuses_short_packet : Instr.wellFormed 10 (.pktWrite .rxp [1, 2]) = false := by decide
theorem test_wellFormed_refuses_long_append :
    Instr.wellFormed 10 (.rbAppend .tx (List.replicate 65536 0)) = false := by
  rw [Instr.wellFormed, List.length_replicate]; decide
theorem test_wellFormed_accepts_append : Instr.wellFormed 10 (.rbAppend .tx [1, 2, 3]) = true := by decide

/-! ### Decoding: words written out from R110 and R116 -/

theorem test_decode_rbAppend :
    decode 10 [0x10000003, 1, 2, 3, 0x30000000] = .command (.rbAppend .tx [1, 2, 3]) [0x30000000] := by decide
theorem test_decode_rbConsume : decode 10 [0x21000002] = .command (.rbConsume .rx 2) [] := by decide
theorem test_decode_rbOcc : decode 10 [0x31000000] = .command (.rbOcc .rx) [] := by decide
theorem test_decode_rbFree : decode 10 [0x40000000] = .command (.rbFree .tx) [] := by decide
theorem test_decode_rbClear : decode 10 [0x51000000] = .command (.rbClear .rx) [] := by decide
theorem test_decode_pktWrite : decode 3 [0x61000000, 7, 8, 9, 4] = .command (.pktWrite .rxp [7, 8, 9]) [4] := by decide
theorem test_decode_pktRead : decode 10 [0x70000000] = .command (.pktRead .txp) [] := by decide
theorem test_decode_pktCsum : decode 10 [0x81000000] = .command (.pktCsum .rxp) [] := by decide
theorem test_decode_pktVerify : decode 10 [0x90000000] = .command (.pktVerify .txp) [] := by decide
theorem test_decode_pktVfyp : decode 10 [0xA1000000] = .command (.pktVfyp .rxp) [] := by decide
theorem test_decode_txBuild : decode 10 [0xB0000000, 0xBEEF] = .command (.txBuild 0xBEEF) [] := by decide
theorem test_decode_rxParse : decode 10 [0xC0000000] = .command .rxParse [] := by decide
theorem test_decode_cfg : decode 10 [0xD0000000] = .command .cfg [] := by decide

/-- V-SY-3, 5, 6, 8, 9, 12: each clause of R117. -/
theorem test_decode_illegal :
    decodeHead 0x00000000 = .illegal .opcode ∧ decodeHead 0xFFFFFFFF = .illegal .opcode ∧
    decodeHead 0x30000001 = .illegal .count ∧ decodeHead 0x12000001 = .illegal .reserved1 ∧
    decodeHead 0x10800000 = .illegal .reserved2 ∧ decodeHead 0xD1000000 = .illegal .select := by decide

theorem test_decode_incomplete : decode 10 [0xB0000000] = .incomplete ∧ decode 10 [] = .idle := by decide

theorem test_encode_examples :
    encode (.rbAppend .tx [1, 2, 3]) = [0x10000003, 1, 2, 3] ∧ encode (.rbConsume .rx 2) = [0x21000002] ∧
    encode (.txBuild 0xBEEF) = [0xB0000000, 0xBEEF] := by decide

theorem test_decodeTableWord :
    decodeTableWord 32 0x31000000 = some (.rbOcc .rx) ∧ decodeTableWord 32 0xB0000000 = some (.txBuild 0) ∧
    decodeTableWord 32 0x10000002 = some (.rbAppend .tx [0, 0]) ∧ decodeTableWord 32 0xE0000000 = none ∧
    decodeTableWord 32 0x60000000 = some (.pktWrite .txp (List.replicate 10 0)) := by decide

/-! ### The checksum -/

/-- V-CS-0: Adler-32 of `Wikipedia` and of nothing. -/
theorem test_adler32 :
    adler32 [0x57, 0x69, 0x6B, 0x69, 0x70, 0x65, 0x64, 0x69, 0x61] = 0x11E60398 ∧ adler32 [] = 1 := by decide

/-- V-CS-1 under both byte orders, and V-CS-18. -/
theorem test_checksum_orders :
    checksum (build 16 10) (packet87.take 9) = 0x5A9A0832 ∧
    checksum { build 16 10 with byteOrder := .be } (packet87.take 9) = 0x564B0832 ∧
    checksum { build 4 3 with byteOrder := .be } [9, 0] = 0x0035000A := by decide

/-! ### Steps, from the vectors -/

/-- V-RB-6: the append wraps. -/
theorem test_rbAppend_wraps :
    after (step { given 8 10 [0x10000005, 0xB0, 0xB1, 0xB2, 0xB3, 0xB4] with txRing := ringFrom 6 [] 6 })
      (fun t => (t.output, t.txRing, t.input)) =
    some ([0], { mem := [(0, 0xB2), (1, 0xB3), (2, 0xB4), (6, 0xB0), (7, 0xB1)], head := 6, tail := 3, count := 5 }, []) := by
  decide

/-- V-RB-2: the append does not fit, and its operand words are taken. -/
theorem test_rbAppend_overflow :
    after (step { given 8 10 [0x10000003, 7, 8, 9, 5] with txRing := ringFrom 0 [0, 1, 2, 3, 4, 5] 6 })
      (fun t => (t.output, t.txRing, t.input)) = some ([2], ringFrom 0 [0, 1, 2, 3, 4, 5] 6, [5]) := by decide

/-- V-RB-7: the consume wraps. -/
theorem test_rbConsume_wraps :
    after (step { given 8 10 [0x20000005] with
        txRing := { mem := [(0, 0xB2), (1, 0xB3), (2, 0xB4), (6, 0xB0), (7, 0xB1)], head := 6, tail := 3, count := 5 } })
      (fun t => (t.output, t.txRing.head, t.txRing.tail, t.txRing.count)) =
    some ([0, 0xB0, 0xB1, 0xB2, 0xB3, 0xB4], 3, 3, 0) := by decide

/-- V-RB-8. -/
theorem test_rbConsume_underflow :
    after (step { given 8 10 [0x21000003] with rxRing := ringFrom 0 [5, 6] 2 }) (fun t => (t.output, t.rxRing)) =
    some ([3], ringFrom 0 [5, 6] 2) := by decide

/-- V-RB-11. -/
theorem test_rbOcc :
    after (step { given 8 10 [0x31000000] with rxRing := ringFrom 0 [1, 2, 3, 4, 5] 5 }) (fun t => t.output) =
    some [0, 5] := by decide
theorem test_rbFree :
    after (step { given 8 10 [0x41000000] with rxRing := ringFrom 0 [1, 2, 3, 4, 5] 5 }) (fun t => t.output) =
    some [0, 3] := by decide

/-- V-RB-12. -/
theorem test_rbClear :
    after (step { given 8 10 [0x50000000] with txRing := ringFrom 0 [1, 2, 3] 3 })
      (fun t => (t.output, t.txRing.head, t.txRing.tail, t.txRing.count)) = some ([0], 0, 0, 0) := by decide

/-- R250's example. -/
theorem test_pktWrite :
    after (step (given 16 10 [0x61000000, 7, 8, 1, 2, 3, 4, 5, 6, 7, 0x0370002C])) (fun t => (t.output, t.rxp)) =
    some ([0], stored [7, 8, 1, 2, 3, 4, 5, 6, 7, 0x0370002C]) := by decide

/-- R255's example. -/
theorem test_pktRead :
    after (step { given 16 10 [0x70000000] with txp := stored packet87 }) (fun t => t.output) =
    some (0 :: packet87) := by decide

/-- A read of an unwritten packet draws one value a word (R48). -/
theorem test_pktRead_draws :
    after (step (given 16 3 [0x70000000])) (fun t => (t.output, t.draws)) =
    some ([0, Config.freeWord 0, Config.freeWord 1, Config.freeWord 2], 3) := rfl

/-- V-PK-2. -/
theorem test_pktCsum :
    after (step { given 16 10 [0x81000000] with rxp := stored [0x1234, 7, 1, 2, 3, 4, 5, 6, 7, 0] })
      (fun t => (t.output, t.rxp)) = some ([0], stored packet1234) := by decide

/-- V-PK-3, V-PK-4. -/
theorem test_pktVerify :
    after (step { given 16 10 [0x91000000] with rxp := stored packet1234 }) (fun t => t.output) =
      some [0, 0x1234, 1] ∧
    after (step { given 16 10 [0x91000000] with rxp := stored (packet87.set 2 0) }) (fun t => t.output) =
      some [1, 0xBEEF, 0] := by decide
theorem test_pktVfyp :
    after (step { given 16 10 [0xA1000000] with rxp := stored packet1234 }) (fun t => t.output) =
      some [0, 0x1234, 0] ∧
    after (step { given 16 10 [0xA1000000] with rxp := stored (packet87.set 2 0) }) (fun t => t.output) =
      some [1, 0xBEEF, 1] := by decide

/-- V-TX-2. -/
theorem test_txBuild :
    after (step { given 16 10 [0xB0000000, 0xBEEF] with txRing := ringFrom 0 [1, 2, 3, 4, 5] 5 })
      (fun t => (t.output, t.txp, t.txRing.head, t.txRing.count)) =
    some ([0, 5], stored packet87, 5, 0) := by decide

/-- V-TX-6: `N = 3`. -/
theorem test_txBuild_no_payload_slot :
    after (step { given 4 3 [0xB0000000, 9] with txRing := ringFrom 0 [5] 1 })
      (fun t => (t.output, t.txp, t.txRing)) =
    some ([0, 0], stored [9, 0, 0x0050000A], ringFrom 0 [5] 1) := by decide

/-- V-RX-2. -/
theorem test_rxParse :
    after (step { given 16 10 [0xC0000000] with rxp := stored packet1234 }) (fun t => (t.output, t.rxRing)) =
    some ([0, 1], ringFrom 0 [1, 2, 3, 4, 5, 6, 7] 7) := by decide

/-- V-RX-3, V-RX-6, V-RX-8: overflow, then the checksum before the room, then the length before the room. -/
theorem test_rxParse_rejects :
    after (step { given 8 10 [0xC0000000] with rxp := stored packet1234, rxRing := ringFrom 0 [1, 2] 2 })
      (fun t => (t.output, t.rxRing)) = some ([2, 0], ringFrom 0 [1, 2] 2) ∧
    after (step { given 8 10 [0xC0000000] with rxp := stored (packet87.set 9 0), rxRing := ringFrom 0 [1, 2, 3, 4] 4 })
      (fun t => (t.output, t.rxRing)) = some ([1, 0], ringFrom 0 [1, 2, 3, 4] 4) ∧
    after (step { given 8 10 [0xC0000000] with
        rxp := stored [7, 8, 1, 2, 3, 4, 5, 6, 7, 0x0370002C], rxRing := ringFrom 0 [1, 2] 2 })
      (fun t => (t.output, t.rxRing)) = some ([4, 0], ringFrom 0 [1, 2] 2) := by decide

/-- V-SY-1. -/
theorem test_cfg : after (step (given 16 10 [0xD0000000])) (fun t => t.output) = some [0, 16, 10] := by decide

/-- V-SY-8: only the illegal word is taken. -/
theorem test_illegal :
    after (step (given 16 10 [0x12000001, 0x30000000])) (fun t => (t.output, t.input)) =
    some ([5], [0x30000000]) := by decide

/-- R350: a hold, a finished run and an illegal configuration are told apart. -/
theorem test_no_step :
    refusalOf (step (given 16 10 [0xB0000000])) = some .holdIncomplete ∧
    refusalOf (step State.reset) = some .holdIdle ∧
    refusalOf (step (given 0 10 [0xD0000000])) = some .illegalConfig ∧
    refusalOf (step (given 16 2 [0xD0000000])) = some .illegalConfig ∧
    refusalOf (step (given (2 ^ 32) 10 [0xD0000000])) = some .illegalConfig := by decide

/-! ### Assembly, from R121 and 95_test_vectors.md section 8 -/

theorem test_assemble :
    assemble 10 "rb.append tx, 3 : 1, 2, 3" = some [0x10000003, 1, 2, 3] ∧
    assemble 10 "RB.CONSUME rx, 2" = some [0x21000002] ∧
    assemble 10 "tx.build : 0xBEEF" = some [0xB0000000, 0xBEEF] ∧
    assemble 10 "pkt.vfyp rxp" = some [0xA1000000] ∧
    assemble 10 ".word 0x30000001" = some [0x30000001] := by decide

theorem test_assemble_rejects :
    assemble 10 "rb.append tx, 2 : 1" = none ∧ assemble 10 "rb.occ txp" = none ∧ assemble 10 "cfg tx" = none ∧
    assemble 10 "rb.consume tx, 65536" = none := by decide

/-- R10's spelling of a literal; that `_` stands only between two digits is the model's choice (log 18). -/
theorem test_assemble_separator :
    assemble 10 ".word 0x1000_0000" = some [0x10000000] ∧ assemble 10 ".word 0x_1" = none ∧
    assemble 10 ".word 0x1_" = none ∧ assemble 10 ".word 0x1__0" = none ∧ assemble 10 ".word 0x_" = none := by decide

/-! ### Witnesses: for each statement with hypotheses, states and operands that meet them, each clause at a boundary -/

/-- A core with both rings in use, the TX ring across the end of its storage, and both packet buffers written; the RX
packet's 7 payload words do not fit in the RX ring's 6 free slots. -/
def busy : State :=
  { State.resetWith (build 8 10) with
    txRing := { mem := [(0, 3), (1, 4), (2, 5), (6, 1), (7, 2)], head := 6, tail := 3, count := 5 }
    rxRing := ringFrom 0 [1, 2] 2
    txp := stored packet87
    rxp := stored packet1234 }

/-- `busy` with exactly enough room in the RX ring. -/
def roomy : State := { busy with rxRing := ringFrom 0 [1] 1 }

/-- `busy` with a packet of length `N - 2`, one too many. -/
def packetLong : List Word := [7, 8, 1, 2, 3, 4, 5, 6, 7, 0x0370002C]
def long : State := { busy with rxp := stored packetLong }

/-- `busy` with a packet whose checksum word is 0. -/
def broken : State := { busy with rxp := stored (packet1234.set 9 0) }

/-- `busy` with the TX ring's words elsewhere in its storage, other words in the slots not in use. -/
def moved : State :=
  { busy with txRing :=
      { mem := [(0, 9), (2, 1), (3, 2), (4, 3), (5, 4), (6, 5)], head := 2, tail := 7, count := 5 } }

theorem memoryInv_of {n : Nat} {m : Memory} (h : Memory.wf m ∧ ∀ c ∈ m, c.1 < n) : MemoryInv n m := ⟨h.1, h.2⟩

theorem ringInv_of {cap : Nat} {r : Ring}
    (h : (Memory.wf r.mem ∧ ∀ c ∈ r.mem, c.1 < cap) ∧ r.count ≤ cap ∧ r.head < cap ∧ r.tail < cap ∧
      r.tail = (r.head + r.count) % cap ∧ none ∉ r.contents cap) : RingInv cap r :=
  ⟨memoryInv_of h.1, h.2.1, h.2.2.1, h.2.2.2.1, h.2.2.2.2.1, h.2.2.2.2.2⟩

theorem inv_of {s : State}
    (h : s.cfg.Legal ∧
      (∀ b ∈ [RingSel.tx, RingSel.rx], (Memory.wf (s.ring b).mem ∧ ∀ c ∈ (s.ring b).mem, c.1 < s.cfg.cap) ∧
        (s.ring b).count ≤ s.cfg.cap ∧ (s.ring b).head < s.cfg.cap ∧ (s.ring b).tail < s.cfg.cap ∧
        (s.ring b).tail = ((s.ring b).head + (s.ring b).count) % s.cfg.cap ∧ none ∉ (s.ring b).contents s.cfg.cap) ∧
      ∀ p ∈ [PktSel.txp, PktSel.rxp], Memory.wf (s.pkt p) ∧ ∀ c ∈ s.pkt p, c.1 < s.cfg.N) : s.Inv :=
  ⟨h.1, fun b => ringInv_of (h.2.1 b (by cases b <;> simp)), fun p => memoryInv_of (h.2.2 p (by cases p <;> simp))⟩

theorem holds_of {s : State} {p : PktSel} {ps : List Word}
    (h : ps.length = s.cfg.N ∧ ∀ i < ps.length, Memory.read (s.pkt p) i = ps[i]?) : s.PktHolds p ps := h

theorem busy_inv : busy.Inv := inv_of (by decide)
theorem roomy_inv : roomy.Inv := inv_of (by decide)
theorem long_inv : long.Inv := inv_of (by decide)
theorem broken_inv : broken.Inv := inv_of (by decide)
theorem moved_inv : moved.Inv := inv_of (by decide)
theorem busy_holds : busy.PktHolds .rxp packet1234 := holds_of (by decide)
theorem busy_holds_txp : busy.PktHolds .txp packet87 := holds_of (by decide)
theorem roomy_holds : roomy.PktHolds .rxp packet1234 := holds_of (by decide)
theorem long_holds : long.PktHolds .rxp packetLong := holds_of (by decide)
theorem broken_holds : broken.PktHolds .rxp (packet1234.set 9 0) := holds_of (by decide)

/-- The legal configurations at their bounds, and the illegal ones next to them (R350). -/
theorem witness_legal :
    (build 1 3).Legal ∧ (build (2 ^ 32 - 1) 0xFFFFFFFF).Legal ∧
    ¬ (build 0 10).Legal ∧ ¬ (build (2 ^ 32) 10).Legal ∧ ¬ (build 16 2).Legal := by decide

theorem witness_StepFollowsDecodeLoop :
    decode 10 (given 16 10 [0xB0000000, 9]).input = .command (.txBuild 9) [] ∧
    decode 10 (given 16 10 [0, 1]).input = .illegal .opcode [1] ∧
    decode 10 (given 16 10 [0x10000002, 1]).input = .incomplete ∧
    State.reset.input = [] ∧ State.reset.cfg.Legal := by decide

theorem legalWord_of {cw : Word}
    (h : (1 ≤ opNumber cw ∧ opNumber cw ≤ 13) ∧ cw.toNat / 2 ^ 25 % 8 = 0 ∧ cw.toNat / 2 ^ 16 % 256 = 0 ∧
      (opNumber cw ≤ 2 ∨ cntNumber cw = 0) ∧ (opNumber cw ≤ 10 ∨ cw.toNat / 2 ^ 24 % 2 = 0)) : LegalWord cw := h

theorem illegalWord_of {cw : Word}
    (h : ¬ ((1 ≤ opNumber cw ∧ opNumber cw ≤ 13) ∧ cw.toNat / 2 ^ 25 % 8 = 0 ∧ cw.toNat / 2 ^ 16 % 256 = 0 ∧
      (opNumber cw ≤ 2 ∨ cntNumber cw = 0) ∧ (opNumber cw ≤ 10 ∨ cw.toNat / 2 ^ 24 % 2 = 0))) : ¬ LegalWord cw := h

/-- Legal and illegal words at the bounds of each clause of R117. -/
theorem witness_words :
    LegalWord 0x1100FFFF ∧ LegalWord 0x2000FFFF ∧ LegalWord 0xA1000000 ∧ LegalWord 0xD0000000 ∧
    ¬ LegalWord 0x0FFFFFFF ∧ ¬ LegalWord 0xE0000000 ∧ ¬ LegalWord 0x30000001 ∧ ¬ LegalWord 0xB1000000 ∧
    ¬ LegalWord 0x12000001 ∧ ¬ LegalWord 0x10010000 :=
  ⟨legalWord_of (by decide), legalWord_of (by decide), legalWord_of (by decide), legalWord_of (by decide),
    illegalWord_of (by decide), illegalWord_of (by decide), illegalWord_of (by decide), illegalWord_of (by decide),
    illegalWord_of (by decide), illegalWord_of (by decide)⟩

theorem witness_IllegalConfigurationRefused :
    ¬ (given 0 10 []).cfg.Legal ∧ ¬ (given (2 ^ 32) 10 []).cfg.Legal ∧ ¬ (given 16 2 []).cfg.Legal := by decide

theorem witness_IllegalWordAnswersIllegal :
    (given 1 3 [0x0FFFFFFF, 7]).cfg.Legal ∧ (given 1 3 [0x0FFFFFFF, 7]).input = 0x0FFFFFFF :: [7] ∧
    ¬ LegalWord 0x0FFFFFFF := ⟨by decide, rfl, illegalWord_of (by decide)⟩

theorem witness_EveryCommandAnswersOneResponse :
    (given 1 3 [0xE0000000]).cfg.Legal ∧ Instr.wellFormed (given 1 3 [0xE0000000]).cfg.N (.pktWrite .rxp [7, 8, 9]) = true ∧
    (given 1 3 [0xE0000000]).input = 0xE0000000 :: [] ∧ ¬ LegalWord 0xE0000000 :=
  ⟨by decide, by decide, rfl, illegalWord_of (by decide)⟩

theorem witness_DecodedCommandIsItsEncoding :
    decode 3 [0x61000000, 7, 8, 9, 4] = .command (.pktWrite .rxp [7, 8, 9]) [4] := by decide

/-- Operand words present, one missing, and none needed (R113). -/
theorem witness_OperandCountRule :
    operandWords 10 0x10000002 = 2 ∧ operandWords 3 0x61000000 = 3 ∧ operandWords 10 0xB0000000 = 1 ∧
    operandWords 10 0x2000FFFF = 0 := by decide

theorem witness_wellFormed :
    Instr.wellFormed 10 (.rbAppend .tx (List.replicate 65535 0)) = true ∧
    Instr.wellFormed 3 (.pktWrite .rxp [7, 8, 9]) = true ∧ Instr.wellFormed 10 .cfg = true := by
  refine ⟨?_, by decide, by decide⟩
  rw [Instr.wellFormed, List.length_replicate]; decide

theorem witness_NextCommandStartsAfterOperands :
    (given 16 10 [0x10000002, 7, 8, 0xD0000000]).input = encode (.rbAppend .tx [7, 8]) ++ [0xD0000000] ∧
    (given 16 10 [0, 0xD0000000]).input = 0 :: [0xD0000000] := by decide

theorem witness_CommandSequenceRunsInOrder :
    (given 16 3 [0x10000001, 7, 0xB0000000, 9, 0x70000000]).input =
      [Instr.rbAppend .tx [7], .txBuild 9, .pktRead .txp].flatMap encode ∧
    ∀ i ∈ [Instr.rbAppend .tx [7], .txBuild 9, .pktRead .txp], i.wellFormed 3 = true := by decide

theorem witness_StepKeepsTheInvariant :
    ∃ s t, s.Inv ∧ step s = .next t ∧ t.txRing ≠ s.txRing :=
  ⟨{ busy with input := [0xB0000000, 9] }, _, inv_of (by decide), rfl, by decide⟩

theorem witness_ReachableRingsMeetTheRingInvariant :
    ∃ s, Reachable (build 8 10) s ∧ s.rxRing.count = 1 :=
  ⟨_, .event .core (.event (.send [0x11000001, 7]) .reset rfl) rfl, by decide⟩

theorem witness_ConfigurationNeverChanges :
    (∃ t, react .core { busy with input := [0xD0000000] } = .next t) ∧ (∃ t, react (.send [1]) busy = .next t) ∧
    ∃ t, react .reset busy = .next t := ⟨⟨_, rfl⟩, ⟨_, rfl⟩, ⟨_, rfl⟩⟩

theorem witness_FailedCommandChangesNothing :
    (∃ t, exec (.rbAppend .tx [1, 2, 3, 4]) busy = .next t ∧ t.output = busy.output ++ [statusCode .overflow]) ∧
    (∃ t, exec (.rbConsume .tx 6) busy = .next t ∧ t.output = busy.output ++ [statusCode .underflow]) ∧
    (∃ t, exec (.pktVfyp .rxp) broken = .next t ∧ t.output = broken.output ++ statusCode .csumMismatch :: [0x1234, 1]) ∧
    ∃ t, exec .rxParse long = .next t ∧ t.output = long.output ++ statusCode .malformedLength :: [0] :=
  ⟨⟨_, rfl, by decide⟩, ⟨_, rfl, by decide⟩, ⟨_, rfl, by decide⟩, ⟨_, rfl, by decide⟩⟩

theorem witness_QueriesChangeNothing :
    (∃ t, exec (.rbFree .rx) busy = .next t) ∧ (∃ t, exec (.pktVfyp .rxp) busy = .next t) ∧
    busy.PktHolds .rxp packet1234 := ⟨⟨_, rfl⟩, ⟨_, rfl⟩, busy_holds⟩

theorem witness_QueriesRepeatTheirResponse :
    (∃ t, exec (.rbOcc .tx) busy = .next t ∧ t.output = busy.output ++ [0, 5]) ∧
    (∃ t, exec (.pktVerify .rxp) busy = .next t ∧ t.output = busy.output ++ [0, 0x1234, 1]) ∧
    busy.PktHolds .rxp packet1234 :=
  ⟨⟨_, rfl, by decide⟩, ⟨_, rfl, by decide⟩, busy_holds⟩

/-- The free space of the TX ring of `busy` is 3: a request of 3 words and one of 4. -/
theorem witness_AppendIsAllOrNothing :
    busy.cfg.Legal ∧ RingInv busy.cfg.cap (busy.ring .tx) ∧
    [1, 2, (3 : Word)].length = (busy.ring .tx).free busy.cfg.cap ∧
    (busy.ring .tx).free busy.cfg.cap < [1, 2, 3, (4 : Word)].length :=
  ⟨by decide, busy_inv.ring .tx, by decide, by decide⟩

theorem witness_AppendExtendsTheContents :
    (∃ t, exec (.rbAppend .tx [1, 2, 3]) busy = .next t) ∧ busy.cfg.Legal ∧ RingInv busy.cfg.cap (busy.ring .tx) ∧
    [1, 2, (3 : Word)].length ≤ (busy.ring .tx).free busy.cfg.cap :=
  ⟨⟨_, rfl⟩, by decide, busy_inv.ring .tx, by decide⟩

/-- The occupancy of the TX ring of `busy` is 5: a request of 5 words and one of 6. -/
theorem witness_ConsumeReturnsTheOldestWords :
    busy.cfg.Legal ∧ RingInv busy.cfg.cap (busy.ring .tx) ∧ (5 : BitVec 16).toNat = (busy.ring .tx).count ∧
    (busy.ring .tx).count < (6 : BitVec 16).toNat :=
  ⟨by decide, busy_inv.ring .tx, by decide, by decide⟩

/-- Two states with the same TX ring and everything else different. -/
theorem witness_RingCommandsTouchOnlyTheirRing :
    (∃ t, exec (.rbConsume .tx 5) busy = .next t) ∧ (∃ t, exec (.rbConsume .tx 5) { long with rxRing := Ring.empty } = .next t) ∧
    RingInv busy.cfg.cap (busy.ring .tx) ∧ busy.cfg = long.cfg ∧
    busy.ring .tx = { long with rxRing := Ring.empty }.ring .tx := ⟨⟨_, rfl⟩, ⟨_, rfl⟩, busy_inv.ring .tx, rfl, rfl⟩

/-- A transfer that ends at the last slot, and one that ends one slot further. -/
theorem witness_WraparoundIsTwoContiguousCopies :
    slots 8 6 2 = List.range' 6 2 ∧ slots 8 6 3 = List.range' 6 (8 - 6) ++ List.range' 0 (6 + 3 - 8) := by decide

theorem witness_OccupancyIsConserved :
    (∃ t, exec (.rbAppend .tx [1, 2, 3]) busy = .next t ∧ t.output = busy.output ++ [0]) ∧
    (∃ t, exec (.rbAppend .tx [1, 2, 3, 4]) busy = .next t ∧ t.output ≠ busy.output ++ [0]) ∧
    (∃ t, exec (.rbConsume .tx 5) busy = .next t ∧ ∃ ws, t.output = busy.output ++ 0 :: ws) ∧
    ∃ t, exec (.rbConsume .tx 6) busy = .next t ∧ t.output = [3] :=
  ⟨⟨_, rfl, by decide⟩, ⟨_, rfl, by decide⟩, ⟨_, rfl, [1, 2, 3, 4, 5], by decide⟩, ⟨_, rfl, by decide⟩⟩

theorem trace_of {b : RingSel} {i : Instr} {is : List Instr} {s t u : State} {ins outs ins' outs' : List Word}
    (hi : i ≠ .rbClear b) (he : exec i s = .next t) (hin : accepted b i s t ++ ins = ins')
    (hout : removed b i s t ++ outs = outs') (h : RingTrace b is t u ins outs) : RingTrace b (i :: is) s u ins' outs' :=
  hin ▸ hout ▸ .command hi he h

/-- A trace of the RX ring from an empty ring: two words go in, one comes out. -/
theorem witness_RingsAreFirstInFirstOut :
    ∃ t, RingTrace .rx [.rbAppend .rx [8, 9], .rbConsume .rx 1] (State.resetWith (build 8 10)) t [8, 9] [8] ∧
      (State.resetWith (build 8 10)).Inv ∧ (State.resetWith (build 8 10)).rxRing.count = 0 :=
  ⟨_, trace_of (ins := []) (outs := [8]) (by decide) rfl (by decide) (by decide)
    (trace_of (ins := []) (outs := []) (by decide) rfl (by decide) (by decide) (.done _)), inv_of (by decide), rfl⟩

theorem witness_IndexesAreUnobservable : busy.Inv ∧ moved.Inv ∧ SameToHost busy moved ∧ busy ≠ moved :=
  ⟨busy_inv, moved_inv, ⟨rfl, fun b => by cases b <;> decide, fun _ => rfl, rfl, rfl, rfl⟩, by decide⟩

/-- V-CS vectors' words: one byte changed, and four byte changes that sum to 0 with weighted sum 0. -/
theorem witness_DefaultChecksumDetection :
    Config.default.csum = .adler32 ∧ [5, 0x00000200, (7 : Word)][1]? = some 0x00000200 ∧
    bytesOf .le 0x00000200 = [0, 2, 0, 0] ∧ bytesOf .le 0x00000300 = (bytesOf .le 0x00000200).set 1 3 ∧
    (bytesOf .le 0x00010001).map (fun x => (x.toNat : Int)) =
      List.zipWith (· + ·) ((bytesOf .le 0x00000200).map (fun x => (x.toNat : Int))) [1, -2, 1, 0] := by decide

/-- A valid written packet and one that is not, and a packet nothing has written. -/
theorem witness_VerifyReportsValidity :
    busy.cfg.Legal ∧ busy.PktHolds .rxp packet1234 ∧ validPacket busy.cfg packet1234 ∧
    broken.PktHolds .rxp (packet1234.set 9 0) ∧ ¬ validPacket broken.cfg (packet1234.set 9 0) ∧
    State.reset.cfg.Legal ∧ Memory.read (State.reset.pkt .rxp) 0 = none :=
  ⟨by decide, busy_holds, by decide, broken_holds, by decide, by decide, rfl⟩

/-- A TX ring with fewer words than a packet carries, one with exactly as many, and an empty one. -/
theorem witness_TxBuildConstructsThePacket :
    busy.cfg.Legal ∧ RingInv busy.cfg.cap busy.txRing ∧ busy.txRing.count < busy.cfg.N - 3 ∧
    RingInv busy.cfg.cap (ringFrom 0 [1, 2, 3, 4, 5, 6, 7] 7) ∧
    (ringFrom 0 [1, 2, 3, 4, 5, 6, 7] 7).count = busy.cfg.N - 3 ∧ RingInv busy.cfg.cap Ring.empty :=
  ⟨by decide, busy_inv.ring .tx, by decide, ringInv_of (by decide), by decide, ringInv_of (by decide)⟩

theorem witness_PacketWriteStoresItsWords :
    (given 1 3 []).cfg.Legal ∧ [7, 8, (9 : Word)].length = (given 1 3 []).cfg.N := by decide

theorem witness_CsumThenVerifyIsOk :
    busy.cfg.Legal ∧ (packet1234.take 9).length = busy.cfg.N - 1 ∧ Holds (busy.pkt .rxp) (packet1234.take 9) :=
  ⟨by decide, by decide, by unfold Holds; decide⟩

theorem witness_PacketWritesAreIdempotent :
    ∃ t u, exec (.pktCsum .rxp) broken = .next t ∧ exec (.pktCsum .rxp) t = .next u ∧ broken.Inv ∧
      (packet1234.take 9).length = broken.cfg.N - 1 ∧ Holds (broken.pkt .rxp) (packet1234.take 9) :=
  ⟨_, _, rfl, rfl, broken_inv, by decide, by unfold Holds; decide⟩

/-- The four outcomes of RX.PARSE: a wrong checksum, `L = N - 2`, `L` one more than the free space, `L` equal to it. -/
theorem witness_RxParseChecksInOrder :
    (broken.cfg.Legal ∧ RingInv broken.cfg.cap broken.rxRing ∧ broken.PktHolds .rxp (packet1234.set 9 0) ∧
      ¬ validPacket broken.cfg (packet1234.set 9 0)) ∧
    (long.cfg.Legal ∧ RingInv long.cfg.cap long.rxRing ∧ long.PktHolds .rxp packetLong ∧
      validPacket long.cfg packetLong ∧ long.cfg.N - 3 < packetLength packetLong) ∧
    (busy.cfg.Legal ∧ RingInv busy.cfg.cap busy.rxRing ∧ busy.PktHolds .rxp packet1234 ∧
      validPacket busy.cfg packet1234 ∧ packetLength packet1234 = busy.cfg.N - 3 ∧
      busy.cfg.cap - busy.rxRing.count < packetLength packet1234) ∧
    (roomy.cfg.Legal ∧ RingInv roomy.cfg.cap roomy.rxRing ∧ roomy.PktHolds .rxp packet1234 ∧
      validPacket roomy.cfg packet1234 ∧ packetLength packet1234 = roomy.cfg.cap - roomy.rxRing.count) :=
  ⟨⟨by decide, broken_inv.ring .rx, broken_holds, by decide⟩,
    ⟨by decide, long_inv.ring .rx, long_holds, by decide, by decide⟩,
    ⟨by decide, busy_inv.ring .rx, busy_holds, by decide, by decide, by decide⟩,
    ⟨by decide, roomy_inv.ring .rx, roomy_holds, by decide, by decide⟩⟩

theorem witness_ParsedPayloadIsReplayedInOrder :
    ∃ t, RingInv roomy.cfg.cap roomy.rxRing ∧ roomy.PktHolds .rxp packet1234 ∧ roomy.rxRing.contents roomy.cfg.cap = [(1 : Word)].map some ∧
      exec .rxParse roomy = .next t ∧ t.output = roomy.output ++ [0, 1] ∧ (8 : BitVec 16).toNat = t.rxRing.count :=
  ⟨_, roomy_inv.ring .rx, roomy_holds, by decide, rfl, by decide, by decide⟩

/-- The packet of V-CS-15, whose padding is 0, and one with the same identifier, length and payload padded with
sentinels. -/
def packetZeros : List Word := [3, 1, 0xAA, 0, 0, 0, 0, 0, 0, 0x134800AF]
def packetBody15 : List Word :=
  [3, 1, 0xAA, 0xDEADBEEF, 0xDEADBEEF, 0xDEADBEEF, 0xDEADBEEF, 0xDEADBEEF, 0xDEADBEEF]
def packetPadded : List Word := packetBody15 ++ [checksum (build 8 10) packetBody15]
def zeros : State := { busy with rxp := stored packetZeros }
def padded : State := { busy with rxp := stored packetPadded }

theorem witness_PaddingIsIgnored :
    zeros.PktHolds .rxp packetZeros ∧ padded.PktHolds .rxp packetPadded ∧ padded = { zeros with rxp := padded.rxp } ∧
    validPacket zeros.cfg packetZeros ∧ validPacket zeros.cfg packetPadded ∧
    packetZeros.take (2 + packetLength packetZeros) = packetPadded.take (2 + packetLength packetZeros) ∧
    packetZeros ≠ packetPadded ∧ (∃ t, exec .rxParse zeros = .next t) ∧ ∃ t, exec .rxParse padded = .next t :=
  ⟨holds_of (by decide), holds_of (by decide), rfl, by decide, by decide, by decide, by decide, ⟨_, rfl⟩, ⟨_, rfl⟩⟩

theorem witness_PathsAreIndependent :
    (∃ t, exec (.txBuild 9) busy = .next t) ∧ (∃ t, exec (.txBuild 9) { broken with rxRing := Ring.empty } = .next t) ∧
    (∃ t, exec .rxParse busy = .next t) ∧ (∃ t, exec .rxParse moved = .next t) ∧
    RingInv busy.cfg.cap busy.txRing ∧ busy.cfg = moved.cfg ∧ busy.rxRing = moved.rxRing ∧ busy.rxp = moved.rxp ∧ busy.draws = moved.draws :=
  ⟨⟨_, rfl⟩, ⟨_, rfl⟩, ⟨_, rfl⟩, ⟨_, rfl⟩, busy_inv.ring .tx, rfl, rfl, rfl, rfl⟩

/-- The 5 words of the TX ring fit in the RX ring of `busy`, which has 6 free slots, and not in one with 4. -/
theorem witness_LoopbackDeliversThePayload :
    busy.Inv ∧ min busy.txRing.count (busy.cfg.N - 3) ≤ busy.rxRing.free busy.cfg.cap ∧
    { busy with rxRing := ringFrom 0 [1, 2, 3, 4] 4 }.Inv ∧
    (ringFrom 0 [1, 2, 3, 4] 4).free busy.cfg.cap < min busy.txRing.count (busy.cfg.N - 3) :=
  ⟨busy_inv, by decide, inv_of (by decide), by decide⟩

theorem witness_RetryAfterBackpressureSucceeds :
    (∃ t, busy.Inv ∧ busy.PktHolds .rxp packet1234 ∧ exec .rxParse busy = .next t ∧ t.output = busy.output ++ [2, 0] ∧
      packetLength packet1234 = busy.rxRing.free busy.cfg.cap + (1 : BitVec 16).toNat) ∧
    ∃ t, exec (.rbAppend .tx [1, 2, 3, 4]) busy = .next t ∧ t.output = busy.output ++ [2] ∧
      [1, 2, 3, (4 : Word)].length = (busy.ring .tx).free busy.cfg.cap + (1 : BitVec 16).toNat :=
  ⟨⟨_, busy_inv, busy_holds, rfl, by decide, by decide⟩, ⟨_, rfl, by decide, by decide⟩⟩

theorem witness_AssembledLineIsOneCommand :
    parseLine 10 "rb.append tx, 3 : 1, 2, 3" = some (.command (.rbAppend .tx [1, 2, 3])) := by decide

end Sys2Proof.Tests
end

section
/-! What one command, one step and one event can do to the state, said once: every invariant of the core follows from it
(10_state.md R40 to R48, R80, R82). -/

namespace Sys2Proof.Machine

/-! ### The invariant past the updates of State -/

/-- The invariant speaks of the build, the rings and the packet buffers alone. -/
theorem State.Inv.congr {s t : State} (hs : s.Inv) (hcfg : t.cfg = s.cfg) (hring : ∀ b, t.ring b = s.ring b)
    (hpkt : ∀ p, t.pkt p = s.pkt p) : t.Inv where
  legal := hcfg ▸ hs.legal
  ring b := by rw [hcfg, hring]; exact hs.ring b
  pkt p := by rw [hcfg, hpkt]; exact hs.pkt p

theorem State.Inv.takeInput {s : State} (hs : s.Inv) (rest : List Word) : (s.takeInput rest).Inv :=
  hs.congr rfl (by simp) (by simp)

theorem State.Inv.respond {s : State} (hs : s.Inv) (st : Status) (ws : List Word) : (s.respond st ws).Inv :=
  hs.congr rfl (by simp) (by simp)

theorem State.Inv.setDraws {s : State} (hs : s.Inv) (d : Nat) : ({ s with draws := d } : State).Inv :=
  hs.congr rfl (by simp) (by simp)

theorem State.Inv.setRing {s : State} (hs : s.Inv) (b : RingSel) {r : Ring} (hr : RingInv s.cfg.cap r) :
    (s.setRing b r).Inv where
  legal := by rw [setRing_cfg]; exact hs.legal
  ring b' := by
    rw [setRing_cfg, setRing_ring]
    split
    · exact hr
    · exact hs.ring b'
  pkt p := by rw [setRing_cfg, setRing_pkt]; exact hs.pkt p

theorem State.Inv.setPkt {s : State} (hs : s.Inv) (p : PktSel) {m : Memory} (hm : MemoryInv s.cfg.N m) :
    (s.setPkt p m).Inv where
  legal := by rw [setPkt_cfg]; exact hs.legal
  ring b := by rw [setPkt_cfg, setPkt_ring]; exact hs.ring b
  pkt p' := by
    rw [setPkt_cfg, setPkt_pkt]
    split
    · exact hm
    · exact hs.pkt p'

/-- Reset meets the invariant in every legal build. -/
theorem resetWith_inv {c : Config} (hc : c.Legal) : (State.resetWith c).Inv where
  legal := hc
  ring b := by cases b <;> exact empty_inv hc.2.1
  pkt p := by cases p <;> exact memoryInv_nil _

/-! ### The effect of a command -/

/-- What a command may do: draw, put another ring for one ring and another storage array for one packet buffer, each
meeting its invariant if the old one did, and respond. -/
inductive Effect (s : State) : State → Prop where
  | update (d : Nat) (b : RingSel) (r : Ring) (p : PktSel) (m : Memory) (st : Status) (ws : List Word)
      (hr : RingInv s.cfg.cap (s.ring b) → RingInv s.cfg.cap r)
      (hm : MemoryInv s.cfg.N (s.pkt p) → MemoryInv s.cfg.N m) :
      Effect s (((({ s with draws := d } : State).setRing b r).setPkt p m).respond st ws)

theorem Effect.ofRespond (s : State) (d : Nat) (st : Status) (ws : List Word) :
    Effect s (({ s with draws := d } : State).respond st ws) :=
  .update d .tx s.txRing .txp s.txp st ws id id

theorem Effect.ofRing {s : State} (d : Nat) {b : RingSel} {r : Ring} (st : Status) (ws : List Word)
    (hr : RingInv s.cfg.cap (s.ring b) → RingInv s.cfg.cap r) :
    Effect s ((({ s with draws := d } : State).setRing b r).respond st ws) := by
  have h := Effect.update d b r .txp ((({ s with draws := d } : State).setRing b r).pkt .txp) st ws hr (by simp)
  rwa [setPkt_self] at h

theorem Effect.ofPkt {s : State} (d : Nat) {p : PktSel} {m : Memory} (st : Status) (ws : List Word)
    (hm : MemoryInv s.cfg.N (s.pkt p) → MemoryInv s.cfg.N m) :
    Effect s ((({ s with draws := d } : State).setPkt p m).respond st ws) :=
  .update d .tx s.txRing p m st ws id hm

theorem Effect.cfg_eq {s t : State} (h : Effect s t) : t.cfg = s.cfg := by
  obtain ⟨d, b, r, p, m, st, ws, hr, hm⟩ := h
  simp

theorem Effect.inv {s t : State} (h : Effect s t) (hs : s.Inv) : t.Inv := by
  obtain ⟨d, b, r, p, m, st, ws, hr, hm⟩ := h
  exact (((hs.setDraws d).setRing b (hr (hs.ring b))).setPkt p (by simpa using hm (hs.pkt p))).respond st ws

/-- Appending no more words than the free space keeps the ring invariant. -/
theorem append_inv_of_le_free {cap : Nat} {r : Ring} {ws : List Word} (hc : 0 < cap) (h : ws.length ≤ r.free cap)
    (hr : RingInv cap r) : RingInv cap (r.append cap ws) := by
  have := count_add_free hr
  exact append_inv hr hc (by omega)

/-- RX.PARSE accepts only a payload the ring has room for. -/
theorem rxPayload_length_le_free {c : Config} {free : Nat} {ps : List Word} (h : rxVerdict c free ps = .ok) :
    (rxPayload ps).length ≤ free := by
  have hle : (rxPayload ps).length ≤ packetLength ps := List.length_take_le _ _
  obtain ⟨-, hv⟩ | ⟨-, -, hv⟩ | ⟨-, -, -, hv⟩ | ⟨-, -, hfit, -⟩ := rxVerdict_cases c free ps
  · simp [hv] at h
  · simp [hv] at h
  · simp [hv] at h
  · exact hle.trans hfit

/-- In a legal configuration every command has a next state, and has no more than an `Effect` on the state. -/
theorem exec_effect {s : State} (hl : s.cfg.Legal) (i : Instr) : ∃ t, exec i s = .next t ∧ Effect s t := by
  cases i with
  | rbAppend b ws =>
    by_cases hf : ws.length ≤ (s.ring b).free s.cfg.cap
    · exact ⟨_, exec_rbAppend_fits hl hf, .ofRing s.draws _ _ (append_inv_of_le_free hl.2.1 hf)⟩
    · exact ⟨_, exec_rbAppend_overflow hl (not_le.1 hf), .ofRespond s s.draws _ _⟩
  | rbConsume b cnt =>
    by_cases hc : cnt.toNat ≤ (s.ring b).count
    · exact ⟨_, exec_rbConsume_next hl hc, .ofRing _ _ _ fun hr => drop_inv hr hc⟩
    · exact ⟨_, exec_rbConsume_underflow hl (not_le.1 hc), .ofRespond s s.draws _ _⟩
  | rbOcc b => exact ⟨_, exec_rbOcc hl b, .ofRespond s s.draws _ _⟩
  | rbFree b => exact ⟨_, exec_rbFree hl b, .ofRespond s s.draws _ _⟩
  | rbClear b => exact ⟨_, exec_rbClear hl b, .ofRing s.draws _ _ clear_inv⟩
  | pktWrite p ws => exact ⟨_, exec_pktWrite hl p ws, .ofPkt s.draws _ _ fun hm => packetWrite_inv hm ws⟩
  | pktRead p =>
    obtain ⟨ws, d, -, he⟩ := exec_pktRead hl p
    exact ⟨_, he, .ofRespond s d _ _⟩
  | pktCsum p =>
    obtain ⟨ws, d, -, he⟩ := exec_pktCsum hl p
    have hN := hl.1
    exact ⟨_, he, .ofPkt d _ _ fun hm => write_inv hm (by omega) _⟩
  | pktVerify p =>
    obtain ⟨ws, last, id, d, -, -, he, -⟩ := exec_pktVerify_vfyp hl p
    exact ⟨_, he, .ofRespond s d _ _⟩
  | pktVfyp p =>
    obtain ⟨ws, last, id, d, -, -, -, he⟩ := exec_pktVerify_vfyp hl p
    exact ⟨_, he, .ofRespond s d _ _⟩
  | txBuild id =>
    exact ⟨_, exec_txBuild_next hl id,
      .update _ .tx _ .txp _ _ _ (fun hr => drop_inv hr (txCount_le s).1) fun hm => packetWrite_inv hm _⟩
  | rxParse =>
    obtain ⟨ps, d, -, -, -, he⟩ := exec_rxParse hl
    refine ⟨_, he, .ofRing d _ _ fun hr => ?_⟩
    split
    · next hv => exact append_inv_of_le_free hl.2.1 (rxPayload_length_le_free hv) hr
    · exact hr
  | cfg => exact ⟨_, exec_cfg hl, .ofRespond s s.draws _ _⟩

theorem effect_of_exec {i : Instr} {s t : State} (h : exec i s = .next t) : Effect s t := by
  obtain ⟨u, hu, he⟩ := exec_effect (legal_of_next h) i
  obtain rfl : u = t := Host.Outcome.next.inj (hu.symm.trans h)
  exact he

/-! ### The effect of a step -/

theorem step_command {s : State} {i : Instr} {rest : List Word} (h : fetch s = .command i rest) :
    step s = exec i (s.takeInput rest) := by rw [step, h]

theorem step_illegal {s : State} {why : IllegalReason} {rest : List Word} (h : fetch s = .illegal why rest) :
    step s = execIllegal why (s.takeInput rest) := by rw [step, h]

theorem step_incomplete {s : State} (h : fetch s = .incomplete) : step s = hold .holdIncomplete s := by
  rw [step, h, stepIncomplete]

theorem step_idle {s : State} (h : fetch s = .idle) : step s = hold .holdIdle s := by rw [step, h, stepIdle]

/-- A hold is no step. -/
theorem hold_ne_next (why : Refusal) (s t : State) : hold why s ≠ .next t := by
  unfold hold
  split <;> exact fun h => nomatch h

/-- A step takes words from the input stream and then has the effect of a command; an illegal word only responds. -/
theorem step_effect {s t : State} (h : step s = .next t) : ∃ rest, Effect (s.takeInput rest) t := by
  cases hf : fetch s with
  | command i rest => exact ⟨rest, effect_of_exec (step_command hf ▸ h)⟩
  | illegal why rest =>
    obtain ⟨-, rfl⟩ := commit_eq_next.1 (step_illegal hf ▸ h)
    exact ⟨rest, .ofRespond _ s.draws _ _⟩
  | incomplete => exact absurd (step_incomplete hf ▸ h) (hold_ne_next _ _ _)
  | idle => exact absurd (step_idle hf ▸ h) (hold_ne_next _ _ _)

theorem step_cfg {s t : State} (h : step s = .next t) : t.cfg = s.cfg := by
  obtain ⟨rest, he⟩ := step_effect h
  exact he.cfg_eq

theorem step_inv {s t : State} (hs : s.Inv) (h : step s = .next t) : t.Inv := by
  obtain ⟨rest, he⟩ := step_effect h
  exact he.inv (hs.takeInput rest)

/-! ### The effect of an event -/

theorem react_cfg {e : Event} {s t : State} (h : react e s = .next t) : t.cfg = s.cfg := by
  cases e with
  | core => exact step_cfg h
  | send ws => cases h; rfl
  | reset => cases h; rfl

theorem react_inv {e : Event} {s t : State} (hs : s.Inv) (h : react e s = .next t) : t.Inv := by
  cases e with
  | core => exact step_inv hs h
  | send ws =>
    cases h
    exact hs.takeInput (s.input ++ ws)
  | reset =>
    cases h
    exact (resetWith_inv hs.legal).setDraws s.draws

theorem Reachable.cfg_eq {c : Config} {s : State} (h : Reachable c s) : s.cfg = c := by
  induction h with
  | reset => rfl
  | event e _ he ih => exact (react_cfg he).trans ih

theorem Reachable.inv {c : Config} {s : State} (hc : c.Legal) (h : Reachable c s) : s.Inv := by
  induction h with
  | reset => exact resetWith_inv hc
  | event e _ he ih => exact react_inv ih he

/-- Settles O13: a step has at most the effect of a command, which replaces each ring and each packet buffer only by one
that meets its invariant. -/
theorem stepKeepsTheInvariant : Obligations.StepKeepsTheInvariant :=
  fun _ _ hs h => step_inv hs h

/-- Settles O14: the invariant holds after reset and every event keeps it. -/
theorem reachableRingsMeetTheRingInvariant : Obligations.ReachableRingsMeetTheRingInvariant := by
  intro c s hc h b
  have hr := (h.inv hc).ring b
  rw [h.cfg_eq] at hr
  exact ⟨hr.count_le, hr.head_lt, hr.tail_lt, hr.tail_eq, (Nat.add_comm _ _).trans (count_add_free hr)⟩

/-- Settles O15: the effect of a command leaves the build alone, and so do the host's actions. -/
theorem configurationNeverChanges : Obligations.ConfigurationNeverChanges :=
  fun _ _ _ h => react_cfg h

end Sys2Proof.Machine
end

section
/-! The queries (10_state.md R53, R87): they respond and do nothing else. -/

namespace Sys2Proof.Machine

/-! ### Output and the meanings -/

theorem State.PktHolds.setOutput {s : State} {p : PktSel} {ps : List Word} (h : s.PktHolds p ps) (o : List Word) :
    ({ s with output := o } : State).PktHolds p ps := by
  obtain ⟨hn, hp⟩ := h
  exact ⟨hn, by rwa [setOutput_pkt]⟩

/-- A query, and where it reads a packet a written one. -/
def WrittenQuery (s : State) (b : RingSel) (p : PktSel) (ps : List Word) (i : Instr) : Prop :=
  i ∈ [.rbOcc b, .rbFree b, .cfg] ∨ i ∈ [.pktRead p, .pktVerify p, .pktVfyp p] ∧ s.PktHolds p ps

/-- A query responds and does nothing else, and its response does not depend on `Out`. -/
theorem exec_writtenQuery {s : State} {b : RingSel} {p : PktSel} {ps : List Word} {i : Instr} (hl : s.cfg.Legal)
    (h : WrittenQuery s b p ps i) :
    ∃ st ws, ∀ o, exec i { s with output := o } = .next (({ s with output := o } : State).respond st ws) := by
  have hl' (o : List Word) : ({ s with output := o } : State).cfg.Legal := hl
  obtain hi | ⟨hi, hp⟩ := h
  · simp only [List.mem_cons, List.not_mem_nil, or_false] at hi
    obtain rfl | rfl | rfl := hi
    · exact ⟨.ok, [countWord (s.ring b).count], fun o => by rw [exec_rbOcc (hl' o), setOutput_ring]⟩
    · exact ⟨.ok, [countWord ((s.ring b).free s.cfg.cap)], fun o => by rw [exec_rbFree (hl' o), setOutput_ring]⟩
    · exact ⟨.ok, [countWord s.cfg.cap, s.cfg.packetWords], fun o => exec_cfg (hl' o)⟩
  · simp only [List.mem_cons, List.not_mem_nil, or_false] at hi
    obtain rfl | rfl | rfl := hi
    · exact ⟨.ok, ps, fun o => exec_pktRead_holds (hl' o) (hp.setOutput o)⟩
    · exact ⟨matchStatus (decide (validPacket s.cfg ps)), [ps.getD 0 0, okFlag (decide (validPacket s.cfg ps))],
        fun o => exec_pktVerify_holds (hl' o) (hp.setOutput o)⟩
    · exact ⟨matchStatus (decide (validPacket s.cfg ps)), [ps.getD 0 0, errorFlag (decide (validPacket s.cfg ps))],
        fun o => exec_pktVfyp_holds (hl' o) (hp.setOutput o)⟩

/-- The next state of a query is that of `exec_writtenQuery` from the state itself. -/
theorem eq_respond_of_writtenQuery {s t : State} {b : RingSel} {p : PktSel} {ps : List Word} {i : Instr}
    (h : WrittenQuery s b p ps i) (he : exec i s = .next t) :
    ∃ st ws, t = s.respond st ws ∧
      ∀ o, exec i { s with output := o } = .next (({ s with output := o } : State).respond st ws) := by
  obtain ⟨st, ws, hq⟩ := exec_writtenQuery (legal_of_next he) h
  exact ⟨st, ws, Host.Outcome.next.inj (he.symm.trans (hq s.output)), hq⟩

/-- A packet query over any packet, written or not, responds and draws. -/
theorem exec_pktQuery {s : State} {p : PktSel} {i : Instr} (hl : s.cfg.Legal)
    (hi : i ∈ [.pktRead p, .pktVerify p, .pktVfyp p]) :
    ∃ d st ws, exec i s = .next (({ s with draws := d } : State).respond st ws) := by
  simp only [List.mem_cons, List.not_mem_nil, or_false] at hi
  obtain ⟨_, _, _, _, -, -, hverify, hvfyp⟩ := exec_pktVerify_vfyp hl p
  obtain rfl | rfl | rfl := hi
  · obtain ⟨_, _, -, hread⟩ := exec_pktRead hl p
    exact ⟨_, _, _, hread⟩
  · exact ⟨_, _, _, hverify⟩
  · exact ⟨_, _, _, hvfyp⟩

/-- Settles O19: a query's next state is the state with its response, and for an unwritten packet other draws. -/
theorem queriesChangeNothing : Obligations.QueriesChangeNothing := by
  intro s t b p i he
  refine ⟨fun hi => ?_, fun hi => ⟨?_, fun ⟨ps, hp⟩ => ?_⟩⟩
  · obtain ⟨st, ws, rfl, -⟩ := eq_respond_of_writtenQuery (p := p) (ps := []) (.inl hi) he
    rfl
  · obtain ⟨d, st, ws, hq⟩ := exec_pktQuery (legal_of_next he) hi
    obtain rfl := Host.Outcome.next.inj (he.symm.trans hq)
    rfl
  · obtain ⟨st, ws, rfl, -⟩ := eq_respond_of_writtenQuery (b := b) (.inr ⟨hi, hp⟩) he
    rfl

/-- Settles O20: a query changes `Out` alone, on which its response does not depend. -/
theorem queriesRepeatTheirResponse : Obligations.QueriesRepeatTheirResponse := by
  intro s t b p i ps out hi he hout
  obtain ⟨st, ws, rfl, hq⟩ := eq_respond_of_writtenQuery hi he
  obtain rfl : statusCode st :: ws = out := List.append_cancel_left hout
  exact hq (s.respond st ws).output

end Sys2Proof.Machine
end

section
/-! What a host can learn of a state (10_state.md R45, R46): states alike to the host stay so, command by command, and
give the same responses. -/

namespace Sys2Proof.Machine

/-! ### The meanings of the packet queries and PKT.CSUM, through what they read -/

theorem exec_pktRead_eq {s : State} (hl : s.cfg.Legal) (p : PktSel) :
    exec (.pktRead p) s =
      .next ((s.readPkt p (List.range s.cfg.N)).2.respond .ok (s.readPkt p (List.range s.cfg.N)).1) := commit_legal hl _

theorem exec_pktCsum_eq {s : State} (hl : s.cfg.Legal) (p : PktSel) :
    exec (.pktCsum p) s =
      .next (((s.readPkt p (List.range (s.cfg.N - 1))).2.setPkt p
        (Memory.write ((s.readPkt p (List.range (s.cfg.N - 1))).2.pkt p) (s.cfg.N - 1)
          (checksum s.cfg (s.readPkt p (List.range (s.cfg.N - 1))).1))).respond .ok []) := commit_legal hl _

theorem exec_pktVerify_eq {s : State} (hl : s.cfg.Legal) (p : PktSel) :
    exec (.pktVerify p) s =
      .next ((s.checkPkt p).2.2.respond (matchStatus (s.checkPkt p).1) [(s.checkPkt p).2.1, okFlag (s.checkPkt p).1]) :=
  commit_legal hl _

theorem exec_pktVfyp_eq {s : State} (hl : s.cfg.Legal) (p : PktSel) :
    exec (.pktVfyp p) s =
      .next ((s.checkPkt p).2.2.respond (matchStatus (s.checkPkt p).1) [(s.checkPkt p).2.1, errorFlag (s.checkPkt p).1]) :=
  commit_legal hl _

/-! ### Updates keep states alike to the host -/

namespace SameToHost

variable {s t : State}

theorem count (h : SameToHost s t) (b : RingSel) : (s.ring b).count = (t.ring b).count := by
  simpa using congrArg List.length (h.contents b)

theorem free (h : SameToHost s t) (b : RingSel) : (s.ring b).free s.cfg.cap = (t.ring b).free t.cfg.cap := by
  rw [Ring.free, Ring.free, h.count, h.cfg]

theorem setDraws (h : SameToHost s t) {d d' : Nat} (hd : d = d') :
    SameToHost { s with draws := d } { t with draws := d' } :=
  { h with contents := by simpa using h.contents, pkt := by simpa using h.pkt, draws := hd }

theorem takeInput (h : SameToHost s t) (rest : List Word) : SameToHost (s.takeInput rest) (t.takeInput rest) :=
  { h with contents := by simpa using h.contents, pkt := by simpa using h.pkt, input := rfl }

theorem respond (h : SameToHost s t) {st st' : Status} {ws ws' : List Word} (hst : st = st') (hws : ws = ws') :
    SameToHost (s.respond st ws) (t.respond st' ws') :=
  { h with contents := by simpa using h.contents, pkt := by simpa using h.pkt, output := by simp [h.output, hst, hws] }

theorem setRing (h : SameToHost s t) (b : RingSel) {r r' : Ring} (hr : r.contents s.cfg.cap = r'.contents t.cfg.cap) :
    SameToHost (s.setRing b r) (t.setRing b r') where
  cfg := by simpa using h.cfg
  contents b' := by
    simp only [setRing_cfg, setRing_ring]
    split
    · exact hr
    · exact h.contents b'
  pkt := by simpa using h.pkt
  input := by simpa using h.input
  output := by simpa using h.output
  draws := by simpa using h.draws

theorem setPkt (h : SameToHost s t) (p : PktSel) {m m' : Memory} (hm : m = m') :
    SameToHost (s.setPkt p m) (t.setPkt p m') where
  cfg := by simpa using h.cfg
  contents := by simpa using h.contents
  pkt p' := by simp [hm, h.pkt]
  input := by simpa using h.input
  output := by simpa using h.output
  draws := by simpa using h.draws

/-! ### The shared operations, from states alike to the host -/

theorem readPkt (h : SameToHost s t) (p : PktSel) (idx : List Nat) :
    (s.readPkt p idx).1 = (t.readPkt p idx).1 ∧ SameToHost (s.readPkt p idx).2 (t.readPkt p idx).2 := by
  have hd : drawWords (s.pkt p) idx s.draws = drawWords (t.pkt p) idx t.draws := by rw [h.pkt, h.draws]
  obtain ⟨hws, hdraws⟩ := Prod.ext_iff.1 hd
  exact ⟨hws, h.setDraws hdraws⟩

theorem readPktWord (h : SameToHost s t) (p : PktSel) (i : Nat) :
    (s.readPktWord p i).1 = (t.readPktWord p i).1 ∧ SameToHost (s.readPktWord p i).2 (t.readPktWord p i).2 := by
  have hd : drawWord (s.pkt p) i s.draws = drawWord (t.pkt p) i t.draws := by rw [h.pkt, h.draws]
  obtain ⟨hw, hdraws⟩ := Prod.ext_iff.1 hd
  exact ⟨hw, h.setDraws hdraws⟩

theorem checkPkt (h : SameToHost s t) (p : PktSel) :
    (s.checkPkt p).1 = (t.checkPkt p).1 ∧ (s.checkPkt p).2.1 = (t.checkPkt p).2.1 ∧
      SameToHost (s.checkPkt p).2.2 (t.checkPkt p).2.2 := by
  obtain ⟨hws, h₁⟩ := h.readPkt p (List.range (s.cfg.N - 1))
  obtain ⟨hlast, h₂⟩ := h₁.readPktWord p (s.cfg.N - 1)
  obtain ⟨hid, h₃⟩ := h₂.readPktWord p 0
  simp only [State.checkPkt, ← h.cfg]
  exact ⟨by rw [hws, hlast], hid, h₃⟩

theorem popWords (h : SameToHost s t) (b : RingSel) {k : Nat} (hk : k ≤ (s.ring b).count) :
    (s.ring b).popWords s.cfg.cap k s.draws = (t.ring b).popWords t.cfg.cap k t.draws := by
  have hc := h.contents b
  rw [← h.cfg] at hc ⊢
  rw [← h.draws, popWords_congr hc hk]

theorem drop_contents (h : SameToHost s t) (b : RingSel) {k : Nat} (hk : k ≤ (s.ring b).count) :
    ((s.ring b).drop s.cfg.cap k).contents s.cfg.cap = ((t.ring b).drop t.cfg.cap k).contents t.cfg.cap := by
  rw [Machine.drop_contents hk, Machine.drop_contents (h.count b ▸ hk), h.contents]

theorem append_contents (hs : s.Inv) (ht : t.Inv) (h : SameToHost s t) (b : RingSel) {ws : List Word}
    (hf : ws.length ≤ (s.ring b).free s.cfg.cap) :
    ((s.ring b).append s.cfg.cap ws).contents s.cfg.cap = ((t.ring b).append t.cfg.cap ws).contents t.cfg.cap := by
  have hsc := count_add_free (hs.ring b)
  have htc := count_add_free (ht.ring b)
  rw [← h.free b] at htc
  rw [Machine.append_contents (hs.ring b).tail_eq (by omega), Machine.append_contents (ht.ring b).tail_eq (by omega),
    h.contents]

theorem txCount_eq (h : SameToHost s t) : txCount s = txCount t := by
  rw [txCount, txCount, ← ring_tx, ← ring_tx, h.count, h.cfg]

/-! ### Commands -/

/-- Every command leads states alike to the host to states alike to the host. -/
theorem exec (hs : s.Inv) (ht : t.Inv) (h : SameToHost s t) (i : Instr) :
    ∃ s' t', Machine.exec i s = .next s' ∧ Machine.exec i t = .next t' ∧ SameToHost s' t' := by
  have ls := hs.legal
  have lt := ht.legal
  cases i with
  | rbAppend b ws =>
    have hfree := h.free b
    by_cases hf : ws.length ≤ (s.ring b).free s.cfg.cap
    · exact ⟨_, _, exec_rbAppend_fits ls hf, exec_rbAppend_fits lt (hfree ▸ hf),
        (h.setRing b (append_contents hs ht h b hf)).respond rfl rfl⟩
    · exact ⟨_, _, exec_rbAppend_overflow ls (not_le.1 hf), exec_rbAppend_overflow lt (hfree ▸ not_le.1 hf),
        h.respond rfl rfl⟩
  | rbConsume b cnt =>
    have hcount := h.count b
    by_cases hc : cnt.toNat ≤ (s.ring b).count
    · have hpop := h.popWords b hc
      exact ⟨_, _, exec_rbConsume_next ls hc, exec_rbConsume_next lt (hcount ▸ hc),
        ((h.setDraws (congrArg Prod.snd hpop)).setRing b (h.drop_contents b hc)).respond rfl (congrArg Prod.fst hpop)⟩
    · exact ⟨_, _, exec_rbConsume_underflow ls (not_le.1 hc), exec_rbConsume_underflow lt (hcount ▸ not_le.1 hc),
        h.respond rfl rfl⟩
  | rbOcc b => exact ⟨_, _, exec_rbOcc ls b, exec_rbOcc lt b, h.respond rfl (by rw [h.count])⟩
  | rbFree b => exact ⟨_, _, exec_rbFree ls b, exec_rbFree lt b, h.respond rfl (by rw [h.free])⟩
  | rbClear b => exact ⟨_, _, exec_rbClear ls b, exec_rbClear lt b, (h.setRing b (by simp)).respond rfl rfl⟩
  | pktWrite p ws =>
    exact ⟨_, _, exec_pktWrite ls p ws, exec_pktWrite lt p ws, (h.setPkt p (by rw [h.cfg, h.pkt])).respond rfl rfl⟩
  | pktRead p =>
    obtain ⟨hws, h₁⟩ := h.readPkt p (List.range s.cfg.N)
    exact ⟨_, _, exec_pktRead_eq ls p, exec_pktRead_eq lt p, h.cfg ▸ h₁.respond rfl hws⟩
  | pktCsum p =>
    obtain ⟨hws, h₁⟩ := h.readPkt p (List.range (s.cfg.N - 1))
    refine ⟨_, _, exec_pktCsum_eq ls p, exec_pktCsum_eq lt p, ?_⟩
    rw [← h.cfg]
    exact (h₁.setPkt p (by rw [hws, h₁.pkt])).respond rfl rfl
  | pktVerify p =>
    obtain ⟨hmatch, hid, h₁⟩ := h.checkPkt p
    exact ⟨_, _, exec_pktVerify_eq ls p, exec_pktVerify_eq lt p, h₁.respond (by rw [hmatch]) (by rw [hmatch, hid])⟩
  | pktVfyp p =>
    obtain ⟨hmatch, hid, h₁⟩ := h.checkPkt p
    exact ⟨_, _, exec_pktVfyp_eq ls p, exec_pktVfyp_eq lt p, h₁.respond (by rw [hmatch]) (by rw [hmatch, hid])⟩
  | txBuild id =>
    have hk := (txCount_le s).1
    have hpop := h.popWords .tx hk
    have hdrop := h.drop_contents .tx hk
    have htxp := h.pkt .txp
    refine ⟨_, _, exec_txBuild_next ls id, exec_txBuild_next lt id, ?_⟩
    rw [← h.txCount_eq]
    refine SameToHost.respond (.setPkt (.setRing (h.setDraws (congrArg Prod.snd hpop)) .tx hdrop) .txp ?_) rfl rfl
    simp only [ring_tx, pkt_txp] at hpop htxp
    rw [hpop, htxp, h.cfg]
  | rxParse =>
    obtain ⟨ps, d, -, hps, hd, he⟩ := exec_rxParse ls
    obtain ⟨ps', d', -, hps', hd', he'⟩ := exec_rxParse lt
    rw [← h.cfg, ← pkt_rxp, ← h.pkt, ← h.draws] at hps' hd'
    obtain rfl : ps' = ps := hps'.trans hps.symm
    obtain rfl : d' = d := hd'.trans hd.symm
    have hfree := h.free .rx
    simp only [ring_rx] at hfree
    have hv : rxVerdict s.cfg (s.rxRing.free s.cfg.cap) ps' = rxVerdict t.cfg (t.rxRing.free t.cfg.cap) ps' := by
      rw [hfree, h.cfg]
    refine ⟨_, _, he, he', .respond (.setRing (h.setDraws rfl) .rx ?_) hv (by rw [hv])⟩
    rw [← hv]
    split
    · next hok => exact append_contents hs ht h .rx (rxPayload_length_le_free hok)
    · exact h.contents .rx
  | cfg => exact ⟨_, _, exec_cfg ls, exec_cfg lt, h.respond rfl (by rw [h.cfg])⟩

/-! ### Steps and runs -/

theorem fetch (h : SameToHost s t) : Machine.fetch s = Machine.fetch t := by
  rw [Machine.fetch, Machine.fetch, h.cfg, h.input]

/-- Both states step, to states alike to the host, or both hold for the same reason. -/
theorem step (hs : s.Inv) (ht : t.Inv) (h : SameToHost s t) :
    (∃ s' t', Machine.step s = .next s' ∧ Machine.step t = .next t' ∧ SameToHost s' t') ∨
    ∃ r, Machine.step s = .refused r ∧ Machine.step t = .refused r := by
  have hf := h.fetch
  cases hd : Machine.fetch t with
  | command i rest =>
    rw [step_command (hf.trans hd), step_command hd]
    exact .inl ((h.takeInput rest).exec (hs.takeInput rest) (ht.takeInput rest) i)
  | illegal why rest =>
    rw [step_illegal (hf.trans hd), step_illegal hd]
    exact .inl ⟨_, _, execIllegal_next (hs.takeInput rest).legal why, execIllegal_next (ht.takeInput rest).legal why,
      (h.takeInput rest).respond rfl rfl⟩
  | incomplete =>
    rw [step_incomplete (hf.trans hd), step_incomplete hd]
    exact .inr ⟨_, hold_legal hs.legal _, hold_legal ht.legal _⟩
  | idle =>
    rw [step_idle (hf.trans hd), step_idle hd]
    exact .inr ⟨_, hold_legal hs.legal _, hold_legal ht.legal _⟩

end SameToHost

/-- A run of `k + 1` steps is a step and a run of `k` steps, if the step is one. -/
theorem run_succ_next {M : Host.Core} {k : Nat} {s t : M.State} (h : M.step s = .next t) :
    M.run (k + 1) s = M.run k t := by rw [Host.Core.run, h]

theorem run_succ_refused {M : Host.Core} {k : Nat} {s : M.State} {r : M.Refusal} (h : M.step s = .refused r) :
    M.run (k + 1) s = .refused r := by rw [Host.Core.run, h]

/-- Settles O30, by induction on the number of steps: one step of each state keeps them alike to the host. -/
theorem indexesAreUnobservable : Obligations.IndexesAreUnobservable := by
  intro k
  induction k with
  | zero => exact fun s t _ _ h => .inl ⟨s, t, rfl, rfl, h⟩
  | succ k ih =>
    intro s t hs ht h
    obtain ⟨s₁, t₁, es, et, h₁⟩ | ⟨r, es, et⟩ := h.step hs ht
    · obtain ⟨s', t', hs', ht', h'⟩ | ⟨r, hs', ht'⟩ := ih s₁ t₁ (step_inv hs es) (step_inv ht et) h₁
      · exact .inl ⟨s', t', (run_succ_next es).trans hs', (run_succ_next et).trans ht', h'⟩
      · exact .inr ⟨r, (run_succ_next es).trans hs', (run_succ_next et).trans ht'⟩
    · exact .inr ⟨r, run_succ_refused es, run_succ_refused et⟩

end Sys2Proof.Machine
end

section
/-! A whole stream of commands (30_encoding.md R119, 20_memory.md R88): the decoder takes them one by one, and no
command depends on the words that wait after it. -/

namespace Sys2Proof.Machine

/-! ### Taking an encoded command -/

theorem decode_encode {n : Nat} {i : Instr} (h : i.wellFormed n = true) (rest : List Word) :
    decode n (encode i ++ rest) = .command i rest := by
  have hlen := operands_length h
  rw [encode, List.cons_append, decode, decodeHead_word (head_valid i)]
  simp only [← hlen, List.length_append, Nat.not_lt.2 (Nat.le_add_right _ _), if_false, List.take_left,
    List.drop_left, head_command]

theorem step_encode {s : State} {i : Instr} {rest : List Word} (h : i.wellFormed s.cfg.N = true)
    (hin : s.input = encode i ++ rest) : step s = exec i (s.takeInput rest) :=
  step_command (by rw [fetch, hin, decode_encode h])

theorem finished_of_input_nil {s : State} (hl : s.cfg.Legal) (h : s.input = []) : Finished s :=
  ⟨h, by rw [step_idle (by rw [fetch, h, decode]), hold_legal hl]⟩

/-! ### The waiting words and the other updates of State -/

section

variable (s : State) (b : RingSel) (p : PktSel) (rest : List Word)

theorem takeInput_respond (st : Status) (ws : List Word) :
    (s.takeInput rest).respond st ws = (s.respond st ws).takeInput rest := rfl

theorem takeInput_setDraws (d : Nat) :
    { s.takeInput rest with draws := d } = ({ s with draws := d } : State).takeInput rest := rfl

theorem takeInput_setRing (r : Ring) : (s.takeInput rest).setRing b r = (s.setRing b r).takeInput rest := by
  cases b <;> rfl

theorem takeInput_setPkt (m : Memory) : (s.takeInput rest).setPkt p m = (s.setPkt p m).takeInput rest := by
  cases p <;> rfl

theorem takeInput_readPkt (idx : List Nat) :
    (s.takeInput rest).readPkt p idx = ((s.readPkt p idx).1, (s.readPkt p idx).2.takeInput rest) := by
  cases p <;> rfl

theorem takeInput_checkPkt :
    (s.takeInput rest).checkPkt p =
      ((s.checkPkt p).1, (s.checkPkt p).2.1, (s.checkPkt p).2.2.takeInput rest) := by
  cases p <;> rfl

end

/-- In a legal configuration every command has a next state, the same whatever words wait in `In` after its own. -/
theorem exec_takeInput {s : State} (hl : s.cfg.Legal) (i : Instr) :
    ∃ t, exec i s = .next t ∧ ∀ rest, exec i (s.takeInput rest) = .next (t.takeInput rest) := by
  have hl' (rest : List Word) : (s.takeInput rest).cfg.Legal := hl
  cases i with
  | rbAppend b ws =>
    by_cases hf : ws.length ≤ (s.ring b).free s.cfg.cap
    · refine ⟨_, exec_rbAppend_fits hl hf, fun rest => ?_⟩
      rw [exec_rbAppend_fits (hl' rest) (by simpa using hf), takeInput_setRing, takeInput_respond, takeInput_ring,
        takeInput_cfg]
    · exact ⟨_, exec_rbAppend_overflow hl (not_le.1 hf),
        fun rest => exec_rbAppend_overflow (hl' rest) (by simpa using hf)⟩
  | rbConsume b cnt =>
    by_cases hc : cnt.toNat ≤ (s.ring b).count
    · refine ⟨_, exec_rbConsume_next hl hc, fun rest => ?_⟩
      rw [exec_rbConsume_next (hl' rest) (by simpa using hc), takeInput_setDraws, takeInput_setRing, takeInput_respond,
        takeInput_ring, takeInput_cfg, takeInput_draws]
    · exact ⟨_, exec_rbConsume_underflow hl (not_le.1 hc),
        fun rest => exec_rbConsume_underflow (hl' rest) (by simpa using hc)⟩
  | rbOcc b =>
    refine ⟨_, exec_rbOcc hl b, fun rest => ?_⟩
    rw [exec_rbOcc (hl' rest), takeInput_respond, takeInput_ring]
  | rbFree b =>
    refine ⟨_, exec_rbFree hl b, fun rest => ?_⟩
    rw [exec_rbFree (hl' rest), takeInput_respond, takeInput_ring, takeInput_cfg]
  | rbClear b =>
    refine ⟨_, exec_rbClear hl b, fun rest => ?_⟩
    rw [exec_rbClear (hl' rest), takeInput_setRing, takeInput_respond, takeInput_ring]
  | pktWrite p ws =>
    refine ⟨_, exec_pktWrite hl p ws, fun rest => ?_⟩
    rw [exec_pktWrite (hl' rest), takeInput_setPkt, takeInput_respond, takeInput_pkt, takeInput_cfg]
  | pktRead p =>
    refine ⟨_, exec_pktRead_eq hl p, fun rest => ?_⟩
    rw [exec_pktRead_eq (hl' rest), takeInput_cfg, takeInput_readPkt, takeInput_respond]
  | pktCsum p =>
    refine ⟨_, exec_pktCsum_eq hl p, fun rest => ?_⟩
    rw [exec_pktCsum_eq (hl' rest), takeInput_cfg, takeInput_readPkt, takeInput_pkt, takeInput_setPkt,
      takeInput_respond]
  | pktVerify p =>
    refine ⟨_, exec_pktVerify_eq hl p, fun rest => ?_⟩
    rw [exec_pktVerify_eq (hl' rest), takeInput_checkPkt, takeInput_respond]
  | pktVfyp p =>
    refine ⟨_, exec_pktVfyp_eq hl p, fun rest => ?_⟩
    rw [exec_pktVfyp_eq (hl' rest), takeInput_checkPkt, takeInput_respond]
  | txBuild id => exact ⟨_, exec_txBuild_next hl id, fun rest => exec_txBuild_next (hl' rest) id⟩
  | rxParse =>
    obtain ⟨_, _, -, rfl, rfl, he⟩ := exec_rxParse hl
    refine ⟨_, he, fun rest => ?_⟩
    obtain ⟨_, _, -, rfl, rfl, he'⟩ := exec_rxParse (hl' rest)
    exact he'
  | cfg => exact ⟨_, exec_cfg hl, fun rest => exec_cfg (hl' rest)⟩

/-! ### A sequence of commands -/

theorem execAll_cons_next {i : Instr} {is : List Instr} {s t : State} (h : exec i s = .next t) :
    execAll (i :: is) s = execAll is t := by rw [execAll, h]

/-- As many steps as there are commands in `In` take them all, and do what the commands do one after the other. -/
theorem run_encoded {is : List Instr} : ∀ {s : State}, s.cfg.Legal → (∀ i ∈ is, i.wellFormed s.cfg.N = true) →
    s.input = is.flatMap encode →
    ∃ t : State, Host.Core.run core is.length s = .next t ∧ t.cfg = s.cfg ∧ t.input = [] ∧
      execAll is (s.takeInput []) = .next t := by
  induction is with
  | nil =>
    intro s _ _ (hin : s.input = [])
    refine ⟨s, rfl, rfl, hin, ?_⟩
    rw [execAll, State.takeInput, ← hin]
  | cons i is ih =>
    intro s hl hwf hin
    obtain ⟨hi, his⟩ := List.forall_mem_cons.1 hwf
    obtain ⟨u, hu, hrest⟩ := exec_takeInput hl i
    have hcfg : u.cfg = s.cfg := (effect_of_exec hu).cfg_eq
    have hstep : step s = .next (u.takeInput (is.flatMap encode)) := (step_encode hi hin).trans (hrest _)
    obtain ⟨t, hrun, htcfg, htin, hall⟩ := ih (s := u.takeInput (is.flatMap encode))
      (by rwa [takeInput_cfg, hcfg]) (by rwa [takeInput_cfg, hcfg]) rfl
    exact ⟨t, (run_succ_next hstep).trans hrun, htcfg.trans hcfg, htin,
      (execAll_cons_next (hrest [])).trans hall⟩

/-- Settles O10: by `run_encoded` the run takes every command in order, and then no word waits. -/
theorem commandSequenceRunsInOrder : Obligations.CommandSequenceRunsInOrder := by
  intro is s hl hwf hin
  obtain ⟨t, hrun, hcfg, htin, hall⟩ := run_encoded hl hwf hin
  exact ⟨t, hrun, finished_of_input_nil (hcfg ▸ hl) htin, hall⟩

end Sys2Proof.Machine
end

section
/-! Commands that fail (20_memory.md R86, 60_exceptions.md R321): a command answers `OK`, or it only draws and
responds. -/

namespace Sys2Proof.Machine

/-- How a command ends: with an `OK` response, or with any response and no other change than draws. -/
inductive OkOrUnchanged (s : State) : State → Prop where
  | ok {t : State} (ws : List Word) (h : t.output = s.output ++ statusCode .ok :: ws) : OkOrUnchanged s t
  | unchanged (d : Nat) (st : Status) (ws : List Word) :
      OkOrUnchanged s (({ s with draws := d } : State).respond st ws)

/-- A status other than `OK` shows that nothing but `Out` and the draws changed. -/
theorem OkOrUnchanged.eq_of_ne_ok {s t : State} {st : Status} {ws : List Word} (h : OkOrUnchanged s t)
    (hst : st ≠ .ok) (hout : t.output = s.output ++ statusCode st :: ws) :
    t = { s with output := t.output, draws := t.draws } := by
  cases h with
  | ok ws' hok => exact absurd (response_inj (hout.symm.trans hok)).1 hst
  | unchanged d st' ws' => rfl

theorem exec_okOrUnchanged {s : State} (hl : s.cfg.Legal) (i : Instr) :
    ∃ t, exec i s = .next t ∧ OkOrUnchanged s t := by
  cases i with
  | rbAppend b ws =>
    by_cases hf : ws.length ≤ (s.ring b).free s.cfg.cap
    · exact ⟨_, exec_rbAppend_fits hl hf, .ok [] (by simp)⟩
    · exact ⟨_, exec_rbAppend_overflow hl (not_le.1 hf), .unchanged s.draws _ _⟩
  | rbConsume b cnt =>
    by_cases hc : cnt.toNat ≤ (s.ring b).count
    · exact ⟨_, exec_rbConsume_next hl hc, .ok _ (by rw [respond_output, setRing_output])⟩
    · exact ⟨_, exec_rbConsume_underflow hl (not_le.1 hc), .unchanged s.draws _ _⟩
  | rbOcc b => exact ⟨_, exec_rbOcc hl b, .ok _ rfl⟩
  | rbFree b => exact ⟨_, exec_rbFree hl b, .ok _ rfl⟩
  | rbClear b => exact ⟨_, exec_rbClear hl b, .ok [] (by simp)⟩
  | pktWrite p ws => exact ⟨_, exec_pktWrite hl p ws, .ok [] (by simp)⟩
  | pktRead p =>
    obtain ⟨ws, d, -, he⟩ := exec_pktRead hl p
    exact ⟨_, he, .ok ws rfl⟩
  | pktCsum p =>
    obtain ⟨ws, d, -, he⟩ := exec_pktCsum hl p
    exact ⟨_, he, .ok [] (by simp)⟩
  | pktVerify p =>
    obtain ⟨_, _, _, d, -, -, he, -⟩ := exec_pktVerify_vfyp hl p
    exact ⟨_, he, .unchanged d _ _⟩
  | pktVfyp p =>
    obtain ⟨_, _, _, d, -, -, -, he⟩ := exec_pktVerify_vfyp hl p
    exact ⟨_, he, .unchanged d _ _⟩
  | txBuild id => exact ⟨_, exec_txBuild_next hl id, .ok [countWord (txCount s)] rfl⟩
  | rxParse =>
    obtain ⟨ps, d, -, -, -, he⟩ := exec_rxParse hl
    refine ⟨_, he, ?_⟩
    by_cases hv : rxVerdict s.cfg (s.rxRing.free s.cfg.cap) ps = .ok
    · exact .ok [successFlag .ok] (by rw [hv]; rfl)
    · rw [if_neg hv]
      exact .unchanged d _ _
  | cfg => exact ⟨_, exec_cfg hl, .ok _ rfl⟩

/-- Settles O18: a command that does not answer `OK` only draws and responds. -/
theorem failedCommandChangesNothing : Obligations.FailedCommandChangesNothing := by
  intro i s t st ws he hst hout
  obtain ⟨u, hu, h⟩ := exec_okOrUnchanged (legal_of_next he) i
  obtain rfl : u = t := Host.Outcome.next.inj (hu.symm.trans he)
  exact h.eq_of_ne_ok hst hout

end Sys2Proof.Machine
end

section
/-! The TX path and the RX path (20_memory.md R94): what each writes, and what its effect depends on. -/

namespace Sys2Proof.Machine

/-! ### TX.BUILD -/

theorem txBuild_frame {s t : State} {id : Word} (hr : RingInv s.cfg.cap s.txRing) (h : exec (.txBuild id) s = .next t) :
    t = { s with txRing := t.txRing, txp := t.txp, output := t.output } := by
  obtain ⟨ws, -, -, he⟩ := exec_txBuild (legal_of_next h) hr id
  obtain rfl := Host.Outcome.next.inj (h.symm.trans he)
  rfl

/-- The packet words TX.BUILD writes do not depend on what `PKT[0]` held. -/
theorem read_packetWrite_congr {n : Nat} (m m' : Memory) {ws : List Word} (h : ws.length = n) {i : Nat} (hi : i < n) :
    Memory.read (packetWrite n m ws) i = Memory.read (packetWrite n m' ws) i := by
  rw [packetWrite_holds m h.le i (h ▸ hi), packetWrite_holds m' h.le i (h ▸ hi)]

/-- From one TX ring, TX.BUILD does the same whatever else the two states hold. -/
theorem txBuild_congr {s s' t t' : State} {id : Word} (hr : RingInv s.cfg.cap s.txRing) (hcfg : s.cfg = s'.cfg)
    (hring : s.txRing = s'.txRing) (h : exec (.txBuild id) s = .next t) (h' : exec (.txBuild id) s' = .next t') :
    t.txRing = t'.txRing ∧ (∀ i < s.cfg.N, Memory.read t.txp i = Memory.read t'.txp i) ∧
      ∃ out, t.output = s.output ++ out ∧ t'.output = s'.output ++ out := by
  have hl := legal_of_next h
  have hcount : txCount s' = txCount s := by rw [txCount, txCount, hcfg, hring]
  obtain ⟨ws, hlen, hc, he⟩ := exec_txBuild hl hr id
  obtain ⟨ws', -, hc', he'⟩ := exec_txBuild (legal_of_next h') (hcfg ▸ hring ▸ hr) id
  rw [hcount, ← hcfg, ← hring] at hc' he'
  obtain rfl : ws' = ws :=
    List.map_injective_iff.2 (Option.some_injective _) (List.append_cancel_right (hc'.symm.trans hc))
  obtain rfl := Host.Outcome.next.inj (h.symm.trans he)
  obtain rfl := Host.Outcome.next.inj (h'.symm.trans he')
  exact ⟨rfl, fun i => read_packetWrite_congr _ _ (buildPacket_length id hl (hlen ▸ (txCount_le s).2)), _, rfl, rfl⟩

/-! ### RX.PARSE -/

theorem rxParse_frame {s t : State} (h : exec .rxParse s = .next t) :
    t = { s with rxRing := t.rxRing, output := t.output, draws := t.draws } := by
  obtain ⟨ps, d, -, -, -, he⟩ := exec_rxParse (legal_of_next h)
  obtain rfl := Host.Outcome.next.inj (h.symm.trans he)
  rfl

/-- From one RX ring, one RX packet and the same draws, RX.PARSE does the same whatever else the two states hold. -/
theorem rxParse_congr {s s' t t' : State} (hcfg : s.cfg = s'.cfg) (hring : s.rxRing = s'.rxRing) (hpkt : s.rxp = s'.rxp)
    (hdraws : s.draws = s'.draws) (h : exec .rxParse s = .next t) (h' : exec .rxParse s' = .next t') :
    t.rxRing = t'.rxRing ∧ ∃ out, t.output = s.output ++ out ∧ t'.output = s'.output ++ out := by
  obtain ⟨ps, d, -, hps, -, he⟩ := exec_rxParse (legal_of_next h)
  obtain ⟨ps', d', -, hps', -, he'⟩ := exec_rxParse (legal_of_next h')
  rw [← hpkt, ← hcfg, ← hdraws, ← hps] at hps'
  rw [hps', ← hcfg, ← hring] at he'
  obtain rfl := Host.Outcome.next.inj (h.symm.trans he)
  obtain rfl := Host.Outcome.next.inj (h'.symm.trans he')
  exact ⟨rfl, _, rfl, rfl⟩

/-- Settles O46: the frame of each path, and that its effect is the same from the same part of the state. -/
theorem pathsAreIndependent : Obligations.PathsAreIndependent :=
  fun _ _ _ _ _ hcfg =>
    ⟨fun hr h => ⟨txBuild_frame hr h, fun hring h' => txBuild_congr hr hcfg hring h h'⟩,
      fun h => ⟨rxParse_frame h, fun hring hpkt hdraws h' => rxParse_congr hcfg hring hpkt hdraws h h'⟩⟩

end Sys2Proof.Machine
end

section
/-! The decoder on a stream (30_encoding.md R113, R117, R119): its answer for each kind of command word, and what a
command it answers says about the stream. -/

namespace Sys2Proof.Machine

/-! ### The answers of the decoder -/

theorem decode_illegal {cw : Word} {why : IllegalReason} (hd : decodeHead cw = .illegal why) (n : Nat)
    (ws : List Word) : decode n (cw :: ws) = .illegal why ws := by
  simp only [decode, hd]

theorem decode_incomplete {n : Nat} {cw : Word} {h : Head} {ws : List Word} (hd : decodeHead cw = .legal h)
    (hlt : ws.length < h.operandCount n) : decode n (cw :: ws) = .incomplete := by
  simp only [decode, hd, if_pos hlt]

theorem decode_legal {n : Nat} {cw : Word} {h : Head} {ws : List Word} (hd : decodeHead cw = .legal h)
    (hle : h.operandCount n ≤ ws.length) :
    decode n (cw :: ws) =
      .command (h.command (ws.take (h.operandCount n))) (ws.drop (h.operandCount n)) := by
  simp only [decode, hd, if_neg (not_lt.2 hle)]

/-- What the decoder's command says of the stream: a legal word, at least its operand words, and the rest. -/
theorem decode_eq_command {n : Nat} {ws rest : List Word} {i : Instr} (h : decode n ws = .command i rest) :
    ∃ cw ops hd, ws = cw :: (ops ++ rest) ∧ decodeHead cw = .legal hd ∧ ops.length = hd.operandCount n ∧
      i = hd.command ops := by
  cases ws with
  | nil => exact nomatch h
  | cons cw ws =>
    cases hh : decodeHead cw with
    | illegal why => exact nomatch (decode_illegal hh n ws).symm.trans h
    | legal hd =>
      obtain hlt | hle := lt_or_ge ws.length (hd.operandCount n)
      · exact nomatch (decode_incomplete hh hlt).symm.trans h
      · obtain ⟨rfl, rfl⟩ := Decoded.command.inj ((decode_legal hh hle).symm.trans h)
        exact ⟨cw, _, hd, by rw [List.take_append_drop], hh, List.length_take_of_le hle, rfl⟩

/-- The operands of the command read from a valid head are the operand words read. -/
theorem command_operands {n : Nat} {h : Head} (hv : h.Valid) {ops : List Word} (hl : ops.length = h.operandCount n) :
    (h.command ops).operands = ops :=
  (List.cons.inj (command_encode hv hl).2).2

/-- Settles O6: by `decode_encode`, over the head and the operand words of the command. -/
theorem decodeEncodeRoundTrip : Obligations.DecodeEncodeRoundTrip :=
  fun _ _ rest h => decode_encode h rest

/-- Settles O7: a legal word is its head's encoding, and the operand words are as many as the head takes. -/
theorem decodedCommandIsItsEncoding : Obligations.DecodedCommandIsItsEncoding := by
  intro n ws rest i h
  obtain ⟨cw, ops, hd, rfl, hcw, hlen, rfl⟩ := decode_eq_command h
  obtain ⟨rfl, hv⟩ := decodeHead_legal hcw
  obtain ⟨hwf, henc⟩ := command_encode hv hlen
  exact ⟨hwf, by rw [henc, List.cons_append]⟩

/-- Settles O5: the operand count of a legal head is the table's, by `operandCount_eq`. -/
theorem operandCountRule : Obligations.OperandCountRule := by
  intro n cw ws
  refine ⟨fun hlegal hlt => ?_, fun hlegal hle => ?_, fun hillegal => ?_⟩
  · obtain ⟨h, hd⟩ := legalWord_iff.1 hlegal
    rw [← operandCount_eq hd] at hlt
    exact decode_incomplete hd hlt
  · obtain ⟨h, hd⟩ := legalWord_iff.1 hlegal
    rw [← operandCount_eq hd] at hle ⊢
    exact ⟨_, decode_legal hd hle, command_operands (decodeHead_legal hd).2 (List.length_take_of_le hle)⟩
  · obtain ⟨why, hd⟩ := illegalWord_iff.1 hillegal
    exact ⟨why, decode_illegal hd n ws⟩

/-- Settles O8: the words of each sample are the encoding of its command, which `decode_encode` decodes. -/
theorem sampleWordsDecode : Obligations.SampleWordsDecode :=
  ⟨decode_encode (i := .rbAppend .tx [1, 2, 3]) rfl [], decode_encode (i := .rbConsume .rx 2) rfl [],
    decode_encode (i := .rbFree .rx) rfl [], decode_encode (i := .pktCsum .rxp) rfl [],
    decode_encode (i := .txBuild 0xBEEF) rfl [], decode_encode (i := .rxParse) rfl [],
    decode_encode (i := .cfg) rfl []⟩

end Sys2Proof.Machine
end

section
/-! The match and mask table (30_encoding.md R118): the row a word matches is the one of the opcode it decodes to. -/

namespace Sys2Proof.Machine

/-- A row's mask leaves out SEL where the command takes it, and CNT where it takes that (R118). -/
theorem row_mask (op : Opcode) :
    op.row.mask = if op.takesCnt then 0xFEFF0000#32 else if op.takesSel then 0xFEFFFFFF#32 else 0xFFFFFFFF#32 := by
  cases op <;> rfl

theorem takesSel_of_takesCnt {op : Opcode} (h : op.takesCnt = true) : op.takesSel = true := by
  revert h; cases op <;> decide

/-- The fields of a word that matches a row: the opcode's, and zero where R117 asks for it. -/
theorem fields_of_row_has {op : Opcode} {cw : Word} (h : op.row.has cw = true) :
    opField cw = op.code ∧ rsv1Field cw = 0 ∧ rsv2Field cw = 0 ∧
      Head.Valid { op := op, sel := selField cw, cnt := cntField cw } := by
  obtain ⟨pOp, pRsv1, pRsv2, pSel, pCnt⟩ := pattern_fields op
  have hmask : cw &&& op.row.mask = op.row.pattern := of_decide_eq_true h
  rw [row_mask] at hmask
  cases hc : op.takesCnt with
  | true =>
    have hs := takesSel_of_takesCnt hc
    rw [if_pos hc, maskCount_iff pSel pCnt, pOp, pRsv1, pRsv2] at hmask
    obtain ⟨h1, h2, h3⟩ := hmask
    exact ⟨h1, h2, h3, by simp [hc], by simp [hs]⟩
  | false =>
    rw [if_neg (ne_true_of_eq_false hc)] at hmask
    cases hs : op.takesSel with
    | true =>
      rw [if_pos hs, maskSel_iff pSel, pOp, pRsv1, pRsv2, pCnt] at hmask
      obtain ⟨⟨h1, h2, h3⟩, h4⟩ := hmask
      exact ⟨h1, h2, h3, fun _ => h4, by simp [hs]⟩
    | false =>
      have hall : 0xFFFFFFFF#32 = BitVec.allOnes 32 := rfl
      rw [if_neg (ne_true_of_eq_false hs), hall, BitVec.and_allOnes] at hmask
      subst hmask
      exact ⟨pOp, pRsv1, pRsv2, fun _ => pCnt, fun _ => pSel⟩

/-- A word with an opcode's code, zero reserved fields and a valid SEL and CNT decodes to the head of its fields. -/
theorem decodeHead_of_fields {op : Opcode} {cw : Word} (h1 : opField cw = op.code) (h2 : rsv1Field cw = 0)
    (h3 : rsv2Field cw = 0) (hv : Head.Valid { op := op, sel := selField cw, cnt := cntField cw }) :
    decodeHead cw = .legal { op := op, sel := selField cw, cnt := cntField cw } := by
  have hcw : cw = Head.word { op := op, sel := selField cw, cnt := cntField cw } :=
    BitVec.eq_of_toNat_eq (by rw [word_of_fields, head_word_toNat, h1, h2, h3]; simp)
  exact (congrArg decodeHead hcw).trans (decodeHead_word hv)

/-- A word matches an opcode's row iff it decodes to a head of that opcode. -/
theorem row_has_iff {op : Opcode} {cw : Word} :
    op.row.has cw = true ↔ ∃ h : Head, decodeHead cw = .legal h ∧ h.op = op := by
  constructor
  · intro h
    obtain ⟨h1, h2, h3, hv⟩ := fields_of_row_has h
    exact ⟨_, decodeHead_of_fields h1 h2 h3 hv, rfl⟩
  · rintro ⟨h, hd, rfl⟩
    obtain ⟨rfl, hv⟩ := decodeHead_legal hd
    exact row_has_word hv

/-- Settles O4: by `row_has_iff` the only row a word can match is the one of the head it decodes to. -/
theorem legalWordMatchesOneRow : Obligations.LegalWordMatchesOneRow := by
  refine fun cw => ⟨⟨fun hlegal => ?_, fun ⟨op, hop, _⟩ => ?_⟩, fun op => row_has_iff⟩
  · obtain ⟨h, hd⟩ := legalWord_iff.1 hlegal
    refine ⟨h.op, row_has_iff.2 ⟨h, hd, rfl⟩, fun op' hop' => ?_⟩
    obtain ⟨h', hd', rfl⟩ := row_has_iff.1 hop'
    rw [HeadResult.legal.inj (hd'.symm.trans hd)]
  · obtain ⟨h, hd, -⟩ := row_has_iff.1 hop
    exact legalWord_iff.2 ⟨h, hd⟩

end Sys2Proof.Machine
end

section
/-! The decode loop and the responses (30_encoding.md R114 to R120): what one step takes from `In` and adds to `Out`. -/

namespace Sys2Proof.Machine

/-! ### What a step takes from `In` -/

theorem Effect.input_eq {s t : State} (h : Effect s t) : t.input = s.input := by
  obtain ⟨d, b, r, p, m, st, ws, hr, hm⟩ := h
  simp

theorem step_illegal_next {s : State} {why : IllegalReason} {rest : List Word} (hl : s.cfg.Legal)
    (h : fetch s = .illegal why rest) : step s = .next ((s.takeInput rest).respond .illegal []) :=
  (step_illegal h).trans (execIllegal_next (s := s.takeInput rest) hl why)

/-- An illegal word in command position is taken alone and answered with ILLEGAL (R305). -/
theorem step_illegalWord {s : State} {cw : Word} {rest : List Word} (hl : s.cfg.Legal) (hcw : ¬ LegalWord cw)
    (hin : s.input = cw :: rest) : step s = .next ((s.takeInput rest).respond .illegal []) := by
  obtain ⟨why, hd⟩ := illegalWord_iff.1 hcw
  exact step_illegal_next hl (by rw [fetch, hin, decode_illegal hd])

/-- Settles O1: one clause for each answer of the decoder. -/
theorem stepFollowsDecodeLoop : Obligations.StepFollowsDecodeLoop :=
  fun _ =>
    ⟨fun _ _ h => step_command h,
      fun _ _ hl h => step_illegal_next hl h,
      fun hl h => (step_incomplete h).trans (hold_legal hl _),
      fun hl h => (finished_of_input_nil hl h).2⟩

/-- Settles O9: the step takes the words of the command, and the effect of a command leaves `In` alone. -/
theorem nextCommandStartsAfterOperands : Obligations.NextCommandStartsAfterOperands := by
  refine fun s rest hl => ⟨fun i hwf hin => ?_, fun cw hcw hin => ⟨_, step_illegalWord hl hcw hin, rfl⟩⟩
  obtain ⟨t, ht, he⟩ := exec_effect (s := s.takeInput rest) hl i
  exact ⟨t, (step_encode hwf hin).trans ht, he.input_eq⟩

/-! ### What a step adds to `Out` -/

/-- Settles O17: the six codes. -/
theorem statusCodesAreTheTable : Obligations.StatusCodesAreTheTable :=
  ⟨rfl, rfl, rfl, rfl, rfl, rfl⟩

/-- Every command may answer `OK` (R116). -/
theorem ok_mem_mayAnswer (i : Instr) : .ok ∈ mayAnswer i := by cases i <;> exact .head _

theorem matchStatus_mem (isMatch : Bool) : matchStatus isMatch ∈ [Status.ok, .csumMismatch] := by
  cases isMatch <;> decide

theorem rxVerdict_mem (c : Config) (free : Nat) (ps : List Word) : rxVerdict c free ps ∈ mayAnswer .rxParse := by
  obtain ⟨-, hv⟩ | ⟨-, -, hv⟩ | ⟨-, -, -, hv⟩ | ⟨-, -, -, hv⟩ := rxVerdict_cases c free ps
  all_goals rw [hv]; decide

theorem Reads.length_range {m : Memory} {n : Nat} {ws : List Word} (h : Reads m (List.range n) ws) :
    ws.length = n := by
  rw [← List.Forall₂.length_eq h, List.length_range]

/-- `t` has one response more than `s`, of the form R116 gives the command. -/
def Answers (i : Instr) (s t : State) : Prop :=
  ∃ st ws, t.output = s.output ++ statusCode st :: ws ∧ st ∈ mayAnswer i ∧ ws.length = resultWords s.cfg.N i st

/-- The response of a state that has the output of `s`. -/
theorem answers_respond {i : Instr} {s u : State} {st : Status} {ws : List Word} (hst : st ∈ mayAnswer i)
    (hws : ws.length = resultWords s.cfg.N i st) (hu : u.output = s.output := by simp) :
    Answers i s (u.respond st ws) :=
  ⟨st, ws, by rw [respond_output, hu], hst, hws⟩

/-- In a legal configuration every command has a next state, with one response of its table's form. -/
theorem exec_answers {s : State} (hl : s.cfg.Legal) (i : Instr) : ∃ t, exec i s = .next t ∧ Answers i s t := by
  cases i with
  | rbAppend b ws =>
    by_cases hf : ws.length ≤ (s.ring b).free s.cfg.cap
    · exact ⟨_, exec_rbAppend_fits hl hf, answers_respond (ok_mem_mayAnswer _) rfl⟩
    · exact ⟨_, exec_rbAppend_overflow hl (not_le.1 hf), answers_respond (.tail _ (.head _)) rfl⟩
  | rbConsume b cnt =>
    by_cases hc : cnt.toNat ≤ (s.ring b).count
    · exact ⟨_, exec_rbConsume_next hl hc, answers_respond (ok_mem_mayAnswer _) (popWords_length _)⟩
    · exact ⟨_, exec_rbConsume_underflow hl (not_le.1 hc), answers_respond (.tail _ (.head _)) rfl⟩
  | rbOcc b => exact ⟨_, exec_rbOcc hl b, answers_respond (ok_mem_mayAnswer _) rfl⟩
  | rbFree b => exact ⟨_, exec_rbFree hl b, answers_respond (ok_mem_mayAnswer _) rfl⟩
  | rbClear b => exact ⟨_, exec_rbClear hl b, answers_respond (ok_mem_mayAnswer _) rfl⟩
  | pktWrite p ws => exact ⟨_, exec_pktWrite hl p ws, answers_respond (ok_mem_mayAnswer _) rfl⟩
  | pktRead p =>
    obtain ⟨ws, d, hr, he⟩ := exec_pktRead hl p
    exact ⟨_, he, answers_respond (ok_mem_mayAnswer _) hr.length_range⟩
  | pktCsum p =>
    obtain ⟨ws, d, -, he⟩ := exec_pktCsum hl p
    exact ⟨_, he, answers_respond (ok_mem_mayAnswer _) rfl⟩
  | pktVerify p =>
    obtain ⟨_, _, _, _, -, -, he, -⟩ := exec_pktVerify_vfyp hl p
    exact ⟨_, he, answers_respond (matchStatus_mem _) rfl⟩
  | pktVfyp p =>
    obtain ⟨_, _, _, _, -, -, -, he⟩ := exec_pktVerify_vfyp hl p
    exact ⟨_, he, answers_respond (matchStatus_mem _) rfl⟩
  | txBuild id => exact ⟨_, exec_txBuild_next hl id, answers_respond (ok_mem_mayAnswer _) rfl⟩
  | rxParse =>
    obtain ⟨ps, d, -, -, -, he⟩ := exec_rxParse hl
    exact ⟨_, he, answers_respond (rxVerdict_mem _ _ _) rfl⟩
  | cfg => exact ⟨_, exec_cfg hl, answers_respond (ok_mem_mayAnswer _) rfl⟩

/-- Settles O16: `exec_answers` for a command, `step_illegalWord` for an illegal word. -/
theorem everyCommandAnswersOneResponse : Obligations.EveryCommandAnswersOneResponse := by
  refine fun s hl => ⟨fun i _ => ?_, fun cw rest hcw hin => ⟨_, step_illegalWord hl hcw hin, rfl⟩⟩
  obtain ⟨t, ht, st, ws, hans⟩ := exec_answers hl i
  exact ⟨t, st, ws, ht, hans⟩

end Sys2Proof.Machine
end

section
/-! The assembly notation (30_encoding.md R121, R122): a line that names a command is a valid head and its operands. -/

namespace Sys2Proof.Machine

/-- The SEL bit of a line is 0 on a command that takes none. -/
theorem selValue_eq_false {op : Opcode} {sel : Option (List Char)} {b : Bool} (h : selValue op sel = some b)
    (ht : op.takesSel = false) : b = false := by
  cases sel with
  | none =>
    rw [selValue, if_neg (ne_true_of_eq_false ht)] at h
    exact (Option.some.inj h).symm
  | some cs =>
    rw [selValue, if_pos ht] at h
    exact nomatch h

/-- The CNT field of a line is 0 on a command that takes none. -/
theorem cntValue_eq_zero {op : Opcode} {cnt : Option Nat} {k : BitVec 16} (h : cntValue op cnt = some k)
    (ht : op.takesCnt = false) : k = 0 := by
  cases cnt with
  | none =>
    rw [cntValue, if_neg (ne_true_of_eq_false ht)] at h
    exact (Option.some.inj h).symm
  | some v =>
    rw [cntValue, if_neg (ne_true_of_eq_false ht)] at h
    exact nomatch h

/-- The command of a line's parts is that of a valid head with as many operand words as it takes. -/
theorem lineCommand_eq_some {n : Nat} {op : Opcode} {sel : Option (List Char)} {cnt : Option Nat} {ws : List Word}
    {i : Instr} (h : lineCommand n op sel cnt ws = some i) :
    ∃ hd : Head, hd.Valid ∧ ws.length = hd.operandCount n ∧ i = hd.command ws := by
  unfold lineCommand at h
  split at h
  · next b k hb hk =>
    obtain ⟨hlen, hi⟩ := Option.ite_none_right_eq_some.1 h
    exact ⟨_, ⟨cntValue_eq_zero hk, selValue_eq_false hb⟩, hlen, (Option.some.inj hi).symm⟩
  · exact nomatch h

theorem eq_some_of_map_command {o : Option Instr} {i : Instr}
    (h : o.map AsmLine.command = some (.command i)) : o = some i := by
  obtain ⟨i', ho, hi⟩ := Option.map_eq_some_iff.1 h
  rw [ho, AsmLine.command.inj hi]

/-- A line read as a command is one `lineCommand` read, from the parts of the line; a `.word` line is none. -/
theorem parseLower_eq_command {n : Nat} {line : List Char} {i : Instr}
    (h : parseLower n line = some (.command i)) : ∃ op sel cnt ws, lineCommand n op sel cnt ws = some i := by
  simp only [parseLower] at h
  split at h
  · -- two parts, no count and no operand words
    split at h
    · obtain ⟨v, -, hv⟩ := Option.map_eq_some_iff.1 h
      exact nomatch hv
    · split at h
      · exact ⟨_, _, _, _, eq_some_of_map_command h⟩
      · exact nomatch h
  · split at h
    · -- the count and the operand words are read: a mnemonic alone, or with a selector
      split at h
      · split at h
        · exact ⟨_, _, _, _, eq_some_of_map_command h⟩
        · exact nomatch h
      · split at h
        · exact ⟨_, _, _, _, eq_some_of_map_command h⟩
        · exact nomatch h
      · exact nomatch h
    · exact nomatch h

/-- Settles O50: the words of the command a line names are a valid head's word and its operands. -/
theorem assembledLineIsOneCommand : Obligations.AssembledLineIsOneCommand := by
  intro n line i h
  obtain ⟨op, sel, cnt, ws, hline⟩ := parseLower_eq_command h
  obtain ⟨hd, hv, hlen, rfl⟩ := lineCommand_eq_some hline
  obtain ⟨hwf, henc⟩ := command_encode hv hlen
  have hdec := decodeHead_word hv
  refine ⟨hd.word, ws, ?_, legalWord_iff.2 ⟨hd, hdec⟩, hlen.trans (operandCount_eq hdec n), ?_⟩
  · rw [assemble, h, Option.map_some, AsmLine.words, henc]
  · simpa [henc] using decode_encode hwf []

end Sys2Proof.Machine
end

section
/-! The slots of a transfer (40_ring_buffer.md R151): a block of the storage, or the end of the storage and then its
start. -/

namespace Sys2Proof.Machine

theorem mem_slots {cap start k i : Nat} : i ∈ slots cap start k ↔ ∃ j < k, (start + j) % cap = i := by
  simp [slots]

theorem slots_getElem? {cap start k j : Nat} (h : j < k) : (slots cap start k)[j]? = some ((start + j) % cap) := by
  rw [List.getElem?_eq_getElem (by rwa [slots_length]), slots_getElem]

/-- A transfer that stays within the storage is one contiguous block. -/
theorem slots_eq_range' {cap start k : Nat} (h : start + k ≤ cap) : slots cap start k = List.range' start k := by
  refine List.ext_getElem (by simp) fun j hj _ => ?_
  rw [slots_length] at hj
  rw [slots_getElem, List.getElem_range'_1, Nat.mod_eq_of_lt (by omega)]

/-- A transfer that crosses the capacity boundary is the block to the end of the storage, then one from its start. -/
theorem slots_eq_range'_append {cap start k : Nat} (hs : start ≤ cap) (hk : k ≤ cap) (h : cap ≤ start + k) :
    slots cap start k = List.range' start (cap - start) ++ List.range' 0 (start + k - cap) := by
  have hsplit : k = (cap - start) + (start + k - cap) := by omega
  calc slots cap start k
      = slots cap start (cap - start) ++ slots cap cap (start + k - cap) := by
        conv_lhs => rw [hsplit, slots_add, Nat.add_sub_cancel' hs]
    _ = slots cap start (cap - start) ++ slots cap 0 (start + k - cap) := by
        rw [← slots_mod cap cap, Nat.mod_self]
    _ = List.range' start (cap - start) ++ List.range' 0 (start + k - cap) := by
        rw [slots_eq_range' (by omega), slots_eq_range' (by omega)]

/-- Settles O27: the modular form splits at the capacity boundary. -/
theorem wraparoundIsTwoContiguousCopies : Obligations.WraparoundIsTwoContiguousCopies :=
  fun _ _ _ hs hk =>
    ⟨fun _ => slots_getElem?, slots_eq_range', fun h => slots_eq_range'_append hs.le hk h.le,
      fun _ => slots_lt (Nat.zero_lt_of_lt hs)⟩

end Sys2Proof.Machine
end

section
/-! The ring buffer commands (40_ring_buffer.md R150 to R186): their words, what each can do, and what it depends on. -/

namespace Sys2Proof.Machine

/-! ### Their command words -/

/-- A command word as a number: `OP`, `SEL` and `CNT` at their places (R110). -/
theorem head_word_eq_ofNat (h : Head) :
    h.word = BitVec.ofNat 32 (h.op.code.toNat * 2 ^ 28 + h.sel.toNat * 2 ^ 24 + h.cnt.toNat) := by
  rw [← head_word_toNat, BitVec.ofNat_toNat, BitVec.setWidth_eq]

theorem encode_rbAppend (b : RingSel) {ws : List Word} (h : ws.length < 2 ^ 16) :
    encode (.rbAppend b ws) =
      BitVec.ofNat 32 ((if b = .tx then 0x10000000 else 0x11000000) + ws.length) :: ws := by
  have hcnt : (BitVec.ofNat 16 ws.length).toNat = ws.length := by rw [BitVec.toNat_ofNat, Nat.mod_eq_of_lt h]
  rw [encode, head_word_eq_ofNat, Instr.head, hcnt]
  cases b <;> simp [Instr.operands, selOfRing, Opcode.code]

theorem encode_rbConsume (b : RingSel) (cnt : BitVec 16) :
    encode (.rbConsume b cnt) =
      [BitVec.ofNat 32 ((if b = .tx then 0x20000000 else 0x21000000) + cnt.toNat)] := by
  rw [encode, head_word_eq_ofNat, Instr.head]
  cases b <;> simp [Instr.operands, selOfRing, Opcode.code]

/-! ### What RB.APPEND and RB.CONSUME can do -/

/-- The response after a ring is replaced. -/
theorem setRing_respond (s : State) (b : RingSel) (r : Ring) (st : Status) (ws : List Word) :
    (s.setRing b r).respond st ws = { s.setRing b r with output := s.output ++ statusCode st :: ws } := by
  rw [State.respond, setRing_output]

/-- RB.CONSUME returns the words its ring's contents begin with. -/
theorem exec_rbConsume_words {s : State} {b : RingSel} {cnt : BitVec 16} {ws : List Word} {rest : List (Option Word)}
    (hl : s.cfg.Legal) (hr : RingInv s.cfg.cap (s.ring b)) (hlen : ws.length = cnt.toNat)
    (hc : (s.ring b).contents s.cfg.cap = ws.map some ++ rest) :
    exec (.rbConsume b cnt) s = .next ((s.setRing b ((s.ring b).drop s.cfg.cap cnt.toNat)).respond .ok ws) := by
  have hcount : cnt.toNat ≤ (s.ring b).count := by
    rw [← contents_length (cap := s.cfg.cap), hc, List.length_append, List.length_map]; omega
  obtain ⟨ws', hlen', hc', he⟩ := exec_rbConsume_fits hl hr hcount
  obtain rfl : ws' = ws :=
    List.map_injective_iff.2 (Option.some_injective _)
      (List.append_inj_left (hc'.symm.trans hc) (by simp [hlen, hlen']))
  exact he

theorem rbAppend_cases {s t : State} {b : RingSel} {ws : List Word} (h : exec (.rbAppend b ws) s = .next t) :
    (ws.length ≤ (s.ring b).free s.cfg.cap ∧ t = (s.setRing b ((s.ring b).append s.cfg.cap ws)).respond .ok []) ∨
    ((s.ring b).free s.cfg.cap < ws.length ∧ t = s.respond .overflow []) := by
  have hl := legal_of_next h
  obtain hf | hf := le_or_gt ws.length ((s.ring b).free s.cfg.cap)
  · exact .inl ⟨hf, Host.Outcome.next.inj (h.symm.trans (exec_rbAppend_fits hl hf))⟩
  · exact .inr ⟨hf, Host.Outcome.next.inj (h.symm.trans (exec_rbAppend_overflow hl hf))⟩

theorem rbConsume_cases {s t : State} {b : RingSel} {cnt : BitVec 16} (hr : RingInv s.cfg.cap (s.ring b))
    (h : exec (.rbConsume b cnt) s = .next t) :
    (cnt.toNat ≤ (s.ring b).count ∧ ∃ ws : List Word,
      (s.ring b).contents s.cfg.cap = ws.map some ++ ((s.ring b).drop s.cfg.cap cnt.toNat).contents s.cfg.cap ∧
      t = (s.setRing b ((s.ring b).drop s.cfg.cap cnt.toNat)).respond .ok ws) ∨
    ((s.ring b).count < cnt.toNat ∧ t = s.respond .underflow []) := by
  have hl := legal_of_next h
  obtain hc | hc := le_or_gt cnt.toNat (s.ring b).count
  · obtain ⟨ws, -, hsplit, he⟩ := exec_rbConsume_fits hl hr hc
    exact .inl ⟨hc, ws, hsplit, Host.Outcome.next.inj (h.symm.trans he)⟩
  · exact .inr ⟨hc, Host.Outcome.next.inj (h.symm.trans (exec_rbConsume_underflow hl hc))⟩

/-- Words that fit are appended at the end of the contents of a ring that meets its invariant. -/
theorem append_contents_of_le_free {cap : Nat} {r : Ring} {ws : List Word} (hr : RingInv cap r)
    (h : ws.length ≤ r.free cap) : (r.append cap ws).contents cap = r.contents cap ++ ws.map some := by
  have := count_add_free hr
  exact append_contents hr.tail_eq (by omega)

/-! ### The statements of the single commands -/

/-- Settles O21: the appended ring is `Ring.append`, whose storage `append_read` and `append_read_other` describe. -/
theorem appendIsAllOrNothing : Obligations.AppendIsAllOrNothing := by
  refine fun s b ws hl _ => ⟨encode_rbAppend b, fun hf => ?_, exec_rbAppend_overflow hl⟩
  refine ⟨((s.ring b).append s.cfg.cap ws).mem, ?_, fun j hj => append_read (hf.trans (Nat.sub_le _ _)) hj,
    fun k hk => append_read_other ?_⟩
  · rw [exec_rbAppend_fits hl hf, setRing_respond]; rfl
  · intro hmem
    obtain ⟨j, hj, rfl⟩ := mem_slots.1 hmem
    exact hk j hj rfl

/-- Settles O22: what fits extends the contents of the ring. -/
theorem appendExtendsTheContents : Obligations.AppendExtendsTheContents := by
  intro s t b ws hl hr hf h
  obtain rfl := Host.Outcome.next.inj (h.symm.trans (exec_rbAppend_fits hl hf))
  simpa using append_contents_of_le_free hr hf

/-- Settles O23: the words returned are those the contents begin with, the rest stays. -/
theorem consumeReturnsTheOldestWords : Obligations.ConsumeReturnsTheOldestWords := by
  refine fun s b cnt hl hr => ⟨encode_rbConsume b cnt, fun hc => ?_, exec_rbConsume_underflow hl⟩
  obtain ⟨ws, hlen, hsplit, he⟩ := exec_rbConsume_fits hl hr hc
  exact ⟨ws, _, by rw [he, setRing_respond]; rfl, rfl, hlen, hsplit⟩

/-- Settles O24: in a legal build both counts fit in a response word. -/
theorem occupancyAndFreeSpaceAreReported : Obligations.OccupancyAndFreeSpaceAreReported := by
  intro s b hl hr
  have hcap := hl.2.2
  have hsum := count_add_free hr
  have hocc : (countWord (s.ring b).count).toNat = (s.ring b).count := countWord_toNat (by omega)
  have hfree : (countWord ((s.ring b).free s.cfg.cap)).toNat = (s.ring b).free s.cfg.cap := countWord_toNat (by omega)
  refine ⟨by cases b <;> rfl, by cases b <;> rfl, _, _, exec_rbOcc hl b, exec_rbFree hl b, hocc, hfree, ?_⟩
  rw [hocc, hfree, hsum]

/-- Settles O25: the ring left is `Ring.clear`. -/
theorem clearEmptiesTheRing : Obligations.ClearEmptiesTheRing :=
  fun s b hl =>
    ⟨by cases b <;> rfl, (s.ring b).clear, by rw [exec_rbClear hl, setRing_respond]; rfl,
      rfl, rfl, rfl, rfl, clear_contents _ _⟩

/-! ### What a ring command depends on (R150) -/

/-- The ring a ring command leaves and its response are the same from every state of the build with that ring. -/
theorem exec_ringCommand {s : State} {b : RingSel} {ws : List Word} {cnt : BitVec 16} {i : Instr} (hl : s.cfg.Legal)
    (hr : RingInv s.cfg.cap (s.ring b)) (hi : i ∈ [.rbAppend b ws, .rbConsume b cnt, .rbOcc b, .rbFree b, .rbClear b]) :
    ∃ r st out, ∀ u : State, s.cfg = u.cfg → s.ring b = u.ring b →
      exec i u = .next ((u.setRing b r).respond st out) := by
  simp only [List.mem_cons, List.not_mem_nil, or_false] at hi
  obtain rfl | rfl | rfl | rfl | rfl := hi
  · obtain hf | hf := le_or_gt ws.length ((s.ring b).free s.cfg.cap)
    · refine ⟨(s.ring b).append s.cfg.cap ws, .ok, [], fun u hcfg hring => ?_⟩
      rw [hcfg, hring] at hf ⊢
      exact exec_rbAppend_fits (hcfg ▸ hl) hf
    · refine ⟨s.ring b, .overflow, [], fun u hcfg hring => ?_⟩
      rw [hring, setRing_self]
      exact exec_rbAppend_overflow (hcfg ▸ hl) (hcfg ▸ hring ▸ hf)
  · obtain hc | hc := le_or_gt cnt.toNat (s.ring b).count
    · obtain ⟨out, hlen, hsplit, -⟩ := exec_rbConsume_fits hl hr hc
      refine ⟨(s.ring b).drop s.cfg.cap cnt.toNat, .ok, out, fun u hcfg hring => ?_⟩
      rw [hcfg, hring] at hr hsplit ⊢
      exact exec_rbConsume_words (hcfg ▸ hl) hr hlen hsplit
    · refine ⟨s.ring b, .underflow, [], fun u hcfg hring => ?_⟩
      rw [hring, setRing_self]
      exact exec_rbConsume_underflow (hcfg ▸ hl) (hring ▸ hc)
  · refine ⟨s.ring b, .ok, [countWord (s.ring b).count], fun u hcfg hring => ?_⟩
    rw [hring, setRing_self]
    exact exec_rbOcc (hcfg ▸ hl) b
  · refine ⟨s.ring b, .ok, [countWord ((s.ring b).free s.cfg.cap)], fun u hcfg hring => ?_⟩
    rw [hcfg, hring, setRing_self]
    exact exec_rbFree (hcfg ▸ hl) b
  · refine ⟨(s.ring b).clear, .ok, [], fun u hcfg hring => ?_⟩
    rw [hring]
    exact exec_rbClear (hcfg ▸ hl) b

/-- Settles O26: both states take the ring and the response that `exec_ringCommand` gives. -/
theorem ringCommandsTouchOnlyTheirRing : Obligations.RingCommandsTouchOnlyTheirRing := by
  intro s s' t t' b ws cnt i hi hr hcfg hring h h'
  obtain ⟨r, st, out, he⟩ := exec_ringCommand (legal_of_next h) hr hi
  obtain rfl := Host.Outcome.next.inj (h.symm.trans (he s rfl rfl))
  obtain rfl := Host.Outcome.next.inj (h'.symm.trans (he s' hcfg hring))
  have hleft : ((s.setRing b r).respond st out).ring b = r := by simp
  refine ⟨?_, by simp, statusCode st :: out, by simp, by simp⟩
  rw [hleft, respond_output, setRing_output, setRing_respond]

/-! ### Conservation (R186) -/

/-- After every command occupancy and free space of each ring add up to the capacity. -/
theorem exec_count_add_free {i : Instr} {s t : State} (hs : s.Inv) (h : exec i s = .next t) (b : RingSel) :
    (t.ring b).count + (t.ring b).free s.cfg.cap = s.cfg.cap := by
  have he := effect_of_exec h
  rw [← he.cfg_eq]
  exact count_add_free ((he.inv hs).ring b)

/-- A response whose first word is 0 has the status `OK` (R115). -/
theorem status_eq_ok {o ws ws' : List Word} {st : Status} (h : o ++ statusCode st :: ws = o ++ 0 :: ws') : st = .ok :=
  (response_inj (b := .ok) h).1

/-- An RB.APPEND that answers `OK` adds its words to the occupancy, any other leaves the ring as it was. -/
theorem rbAppend_count {s t : State} {b : RingSel} {ws : List Word} (h : exec (.rbAppend b ws) s = .next t) :
    (t.output = s.output ++ [0] → (t.ring b).count = (s.ring b).count + ws.length) ∧
      (t.output ≠ s.output ++ [0] → t.ring b = s.ring b) := by
  obtain ⟨-, rfl⟩ | ⟨-, rfl⟩ := rbAppend_cases h
  · exact ⟨fun _ => by simp, fun hne => absurd (by simp [statusCode]) hne⟩
  · exact ⟨fun hout => absurd (status_eq_ok hout) (by decide), fun _ => by simp⟩

/-- An RB.CONSUME that answers `OK` takes its count from the occupancy, any other leaves the ring as it was. -/
theorem rbConsume_count {s t : State} {b : RingSel} {cnt : BitVec 16} (hr : RingInv s.cfg.cap (s.ring b))
    (h : exec (.rbConsume b cnt) s = .next t) :
    ((∃ ws, t.output = s.output ++ 0 :: ws) → (t.ring b).count + cnt.toNat = (s.ring b).count) ∧
      ((¬ ∃ ws, t.output = s.output ++ 0 :: ws) → t.ring b = s.ring b) := by
  obtain ⟨hc, ws, -, rfl⟩ | ⟨-, rfl⟩ := rbConsume_cases hr h
  · exact ⟨fun _ => by simp [Nat.sub_add_cancel hc], fun hne => absurd ⟨ws, by simp [statusCode]⟩ hne⟩
  · exact ⟨fun ⟨_, hout⟩ => absurd (status_eq_ok hout) (by decide), fun _ => by simp⟩

/-- Settles O28: the invariant after the command, and the two outcomes of RB.APPEND and of RB.CONSUME. -/
theorem occupancyIsConserved : Obligations.OccupancyIsConserved := by
  refine fun i s t hs h b => ⟨exec_count_add_free hs h b, ?_, ?_⟩
  · rintro ws rfl
    exact rbAppend_count h
  · rintro cnt rfl
    exact rbConsume_count (hs.ring b) h

end Sys2Proof.Machine
end

section
/-! First in, first out (40_ring_buffer.md R185): each command puts words at the end of a ring's contents and takes
words from their beginning, and a run is the commands one after the other. -/

namespace Sys2Proof.Machine

/-! ### One command -/

/-- From `s` to `t`, `i` put its accepted words behind the contents of ring `b` and took its removed words from the
front. -/
def Fifo (b : RingSel) (i : Instr) (s t : State) : Prop :=
  (s.ring b).contents s.cfg.cap ++ (accepted b i s t).map some =
    (removed b i s t).map some ++ (t.ring b).contents s.cfg.cap

/-- A ring left as it was, with no word put in and none taken out. -/
theorem Fifo.of_ring_eq {b : RingSel} {i : Instr} {s t : State} (hacc : accepted b i s t = [])
    (hrem : removed b i s t = []) (hring : t.ring b = s.ring b) : Fifo b i s t := by
  rw [Fifo, hacc, hrem, hring, List.map_nil, List.append_nil, List.nil_append]

/-- A ring with words put in and none taken out. -/
theorem Fifo.of_contents_append {b : RingSel} {i : Instr} {s t : State} {ws : List Word} (hacc : accepted b i s t = ws)
    (hrem : removed b i s t = [])
    (hc : (t.ring b).contents s.cfg.cap = (s.ring b).contents s.cfg.cap ++ ws.map some) : Fifo b i s t := by
  rw [Fifo, hacc, hrem, hc, List.map_nil, List.nil_append]

/-- A ring with words taken out and none put in. -/
theorem Fifo.of_contents_eq {b : RingSel} {i : Instr} {s t : State} {ws : List Word} (hacc : accepted b i s t = [])
    (hrem : removed b i s t = ws)
    (hc : (s.ring b).contents s.cfg.cap = ws.map some ++ (t.ring b).contents s.cfg.cap) : Fifo b i s t := by
  rw [Fifo, hacc, hrem, hc, List.map_nil, List.append_nil]

theorem fifo_rbAppend {s t : State} {b b' : RingSel} {ws : List Word} (hr : RingInv s.cfg.cap (s.ring b))
    (h : exec (.rbAppend b' ws) s = .next t) : Fifo b (.rbAppend b' ws) s t := by
  obtain ⟨hf, rfl⟩ | ⟨-, rfl⟩ := rbAppend_cases h
  · by_cases hb : b' = b
    · subst hb
      exact .of_contents_append (if_pos ⟨rfl, by simp⟩) rfl (by simpa using append_contents_of_le_free hr hf)
    · exact .of_ring_eq (if_neg fun ⟨he, _⟩ => hb he) rfl (by simp [Ne.symm hb])
  · refine .of_ring_eq (if_neg fun ⟨_, hout⟩ => ?_) rfl (by simp)
    exact absurd (response_inj hout).1 (by decide)

theorem fifo_rbConsume {s t : State} {b b' : RingSel} {cnt : BitVec 16} (hs : s.Inv)
    (h : exec (.rbConsume b' cnt) s = .next t) : Fifo b (.rbConsume b' cnt) s t := by
  by_cases hb : b' = b
  · subst hb
    obtain ⟨-, ws, hsplit, rfl⟩ | ⟨-, rfl⟩ := rbConsume_cases (hs.ring b') h
    · exact .of_contents_eq (ws := ws) rfl (by simp [removed]) (by simpa using hsplit)
    · exact .of_ring_eq rfl (by simp [removed]) (by simp)
  · refine .of_ring_eq rfl (if_neg hb) ?_
    obtain ⟨-, ws, -, rfl⟩ | ⟨-, rfl⟩ := rbConsume_cases (hs.ring b') h
    · simp [Ne.symm hb]
    · simp

/-- The payload words of a packet just built, read back from the packet buffer. -/
theorem read_payload_buildPacket {c : Config} (hl : c.Legal) (m : Memory) (id : Word) {ws : List Word}
    (h : ws.length ≤ c.N - 3) :
    ((List.range ws.length).map fun j =>
      (Memory.read (packetWrite c.N m (buildPacket c id ws)) (2 + j)).getD 0) = ws := by
  have hN := hl.1
  have hlen := buildPacket_length id hl h
  obtain ⟨-, -, hpayload, -⟩ := buildPacket_words (id := id) hl h
  refine List.ext_getElem (by simp) fun j _ hj => ?_
  rw [List.getElem_map, List.getElem_range, packetWrite_holds m hlen.le _ (by omega), hpayload j hj,
    List.getElem?_eq_getElem hj, Option.getD_some]

theorem fifo_txBuild {s t : State} {b : RingSel} {id : Word} (hs : s.Inv) (h : exec (.txBuild id) s = .next t) :
    Fifo b (.txBuild id) s t := by
  obtain ⟨ws, hlen, hsplit, he⟩ := exec_txBuild hs.legal (hs.ring .tx) id
  obtain rfl := Host.Outcome.next.inj (h.symm.trans he)
  obtain ⟨-, hmax⟩ := txCount_le s
  cases b with
  | tx =>
    refine .of_contents_eq rfl ?_ (by simpa using hsplit)
    have hcount : (countWord (txCount s)).toNat = ws.length := by
      have : s.cfg.N < 2 ^ 32 := s.cfg.packetWords.isLt
      rw [countWord_toNat (by omega), hlen]
    simpa [removed, hcount] using read_payload_buildPacket hs.legal s.txp id (hlen ▸ hmax)
  | rx => exact .of_ring_eq rfl rfl rfl

theorem fifo_rxParse {s t : State} {b : RingSel} (hs : s.Inv) (h : exec .rxParse s = .next t) :
    Fifo b .rxParse s t := by
  obtain ⟨ps, d, -, hps, -, he⟩ := exec_rxParse hs.legal
  obtain rfl := Host.Outcome.next.inj (h.symm.trans he)
  cases b with
  | tx => exact .of_ring_eq rfl rfl rfl
  | rx =>
    by_cases hv : rxVerdict s.cfg (s.rxRing.free s.cfg.cap) ps = .ok
    · refine .of_contents_append (ws := rxPayload ps) ?_ rfl ?_
      · rw [accepted, ← hps]
        exact if_pos ⟨rfl, by rw [hv]; rfl⟩
      · simpa [hv] using append_contents_of_le_free (hs.ring .rx) (rxPayload_length_le_free hv)
    · refine .of_ring_eq (if_neg fun ⟨_, hout⟩ => hv (response_inj hout).1) rfl ?_
      simp [hv]

/-- Every command but a clear of ring `b` treats it as a queue. -/
theorem exec_fifo {b : RingSel} {i : Instr} {s t : State} (hs : s.Inv) (hi : i ≠ .rbClear b) (h : exec i s = .next t) :
    Fifo b i s t := by
  have hl := hs.legal
  have keeps {u : State} (he : exec i s = .next u) (hring : u.ring b = s.ring b) : t.ring b = s.ring b := by
    rw [← Host.Outcome.next.inj (he.symm.trans h), hring]
  cases i with
  | rbAppend b' ws => exact fifo_rbAppend (hs.ring b) h
  | rbConsume b' cnt => exact fifo_rbConsume hs h
  | rbOcc b' => exact .of_ring_eq rfl rfl (keeps (exec_rbOcc hl b') (by simp))
  | rbFree b' => exact .of_ring_eq rfl rfl (keeps (exec_rbFree hl b') (by simp))
  | rbClear b' =>
    have hb : b ≠ b' := fun hb => hi (hb ▸ rfl)
    exact .of_ring_eq rfl rfl (keeps (exec_rbClear hl b') (by simp [hb]))
  | pktWrite p ws => exact .of_ring_eq rfl rfl (keeps (exec_pktWrite hl p ws) (by simp))
  | pktRead p =>
    obtain ⟨_, _, -, he⟩ := exec_pktRead hl p
    exact .of_ring_eq rfl rfl (keeps he (by simp))
  | pktCsum p =>
    obtain ⟨_, _, -, he⟩ := exec_pktCsum hl p
    exact .of_ring_eq rfl rfl (keeps he (by simp))
  | pktVerify p =>
    obtain ⟨_, _, _, _, -, -, he, -⟩ := exec_pktVerify_vfyp hl p
    exact .of_ring_eq rfl rfl (keeps he (by simp))
  | pktVfyp p =>
    obtain ⟨_, _, _, _, -, -, -, he⟩ := exec_pktVerify_vfyp hl p
    exact .of_ring_eq rfl rfl (keeps he (by simp))
  | txBuild id => exact fifo_txBuild hs h
  | rxParse => exact fifo_rxParse hs h
  | cfg => exact .of_ring_eq rfl rfl (keeps (exec_cfg hl) (by simp))

/-! ### A run -/

theorem RingTrace.fifo {b : RingSel} {is : List Instr} {s t : State} {ins outs : List Word}
    (h : RingTrace b is s t ins outs) (hs : s.Inv) :
    (s.ring b).contents s.cfg.cap ++ ins.map some = outs.map some ++ (t.ring b).contents t.cfg.cap := by
  induction h with
  | done s => simp
  | @command i is s t u ins outs hi he _ ih =>
    have heff := effect_of_exec he
    have hone : Fifo b i s t := exec_fifo hs hi he
    have hrest := ih (heff.inv hs)
    rw [heff.cfg_eq] at hrest
    calc (s.ring b).contents s.cfg.cap ++ (accepted b i s t ++ ins).map some
        = ((removed b i s t).map some ++ (t.ring b).contents s.cfg.cap) ++ ins.map some := by
          rw [List.map_append, ← List.append_assoc, hone]
      _ = (removed b i s t ++ outs).map some ++ (u.ring b).contents u.cfg.cap := by
          rw [List.append_assoc, hrest, List.map_append, List.append_assoc]

/-- Settles O29: by induction on the run, each command treating the ring as a queue; an empty ring has no contents. -/
theorem ringsAreFirstInFirstOut : Obligations.RingsAreFirstInFirstOut := by
  intro b is s t ins outs hs h
  have hfifo := h.fifo hs
  refine ⟨hfifo, fun hempty => ?_⟩
  have hnil : (s.ring b).contents s.cfg.cap = [] := List.eq_nil_of_length_eq_zero (by rw [contents_length, hempty])
  rw [hnil, List.nil_append] at hfifo
  obtain ⟨taken, left, rfl, htaken, -⟩ := List.map_eq_append_iff.1 hfifo
  rw [← List.map_injective_iff.2 (Option.some_injective _) htaken]
  exact ⟨left, rfl⟩

end Sys2Proof.Machine
end

section
/-! The default checksum (41_checksum.md R201 to R203): the range of its halves, and what a changed word does to it. -/

namespace Sys2Proof.Machine

/-! ### The checksum as two sums -/

theorem checksum_adler32 {c : Config} (hc : c.csum = .adler32) (ws : List Word) :
    checksum c ws = adler32 (ws.flatMap (bytesOf c.byteOrder)) := by
  simp only [checksum, hc]

/-- Settles O31: the halves are the two sums, which stay below the modulus. -/
theorem adlerHalvesStayBelowTheModulus : Obligations.AdlerHalvesStayBelowTheModulus := by
  intro c ws hc
  rw [checksum_adler32 hc, (adler32_halves _).1, (adler32_halves _).2]
  exact (adlerSums_lt _ (by decide) (by decide)).symm

/-- Two checksums are equal iff both sums agree modulo 65521. -/
theorem adler32_eq_iff_modEq (bs cs : List Byte) :
    adler32 bs = adler32 cs ↔
      ((adlerSums bs 1 0).1 : Int) ≡ (adlerSums cs 1 0).1 [ZMOD 65521] ∧
      ((adlerSums bs 1 0).2 : Int) ≡ (adlerSums cs 1 0).2 [ZMOD 65521] := by
  obtain ⟨hb1, hb2⟩ := adlerSums_lt bs (a := 1) (s := 0) (by decide) (by decide)
  obtain ⟨hc1, hc2⟩ := adlerSums_lt cs (a := 1) (s := 0) (by decide) (by decide)
  rw [adler32_eq_iff, Prod.ext_iff]
  constructor
  · rintro ⟨h1, h2⟩
    exact ⟨by rw [h1], by rw [h2]⟩
  · rintro ⟨h1, h2⟩
    exact ⟨(Int.natCast_modEq_iff.1 h1).eq_of_lt_of_lt hb1 hc1, (Int.natCast_modEq_iff.1 h2).eq_of_lt_of_lt hb2 hc2⟩

/-! ### A change within one word -/

/-- The bytes of `w'` are those of `w`, each changed by the amount given (R203). -/
def ByteChange (order : ByteOrder) (w w' : Word) (d0 d1 d2 d3 : Int) : Prop :=
  (bytesOf order w').map (fun x => (x.toNat : Int)) =
    List.zipWith (· + ·) ((bytesOf order w).map (fun x => (x.toNat : Int))) [d0, d1, d2, d3]

theorem ByteChange.bytes {order : ByteOrder} {w w' : Word} {d0 d1 d2 d3 : Int} (h : ByteChange order w w' d0 d1 d2 d3) :
    ∃ x0 x1 x2 x3 y0 y1 y2 y3 : Byte, bytesOf order w = [x0, x1, x2, x3] ∧ bytesOf order w' = [y0, y1, y2, y3] ∧
      (y0.toNat : Int) = x0.toNat + d0 ∧ (y1.toNat : Int) = x1.toNat + d1 ∧
      (y2.toNat : Int) = x2.toNat + d2 ∧ (y3.toNat : Int) = x3.toNat + d3 := by
  obtain ⟨x0, x1, x2, x3, hx⟩ := bytesOf_eq order w
  obtain ⟨y0, y1, y2, y3, hy⟩ := bytesOf_eq order w'
  rw [ByteChange, hx, hy] at h
  exact ⟨x0, x1, x2, x3, y0, y1, y2, y3, hx, hy, by simpa using h⟩

/-- Replacing one byte changes the bytes of a word by amounts that sum to the byte's change. -/
theorem byteChange_of_set {order : ByteOrder} {w w' : Word} {j : Nat} {x x' : Byte} (hx : (bytesOf order w)[j]? = some x)
    (h : bytesOf order w' = (bytesOf order w).set j x') :
    ∃ d0 d1 d2 d3, ByteChange order w w' d0 d1 d2 d3 ∧ d0 + d1 + d2 + d3 = (x'.toNat : Int) - x.toNat := by
  obtain ⟨x0, x1, x2, x3, hw⟩ := bytesOf_eq order w
  simp only [ByteChange, h]
  rw [hw] at hx ⊢
  match j with
  | 0 => exact ⟨x'.toNat - x.toNat, 0, 0, 0, by simp_all⟩
  | 1 => exact ⟨0, x'.toNat - x.toNat, 0, 0, by simp_all⟩
  | 2 => exact ⟨0, 0, x'.toNat - x.toNat, 0, by simp_all⟩
  | 3 => exact ⟨0, 0, 0, x'.toNat - x.toNat, by simp_all⟩
  | j + 4 => simp at hx

/-- The bytes of a list of words, one word changed: only that word's bytes are other ones. -/
theorem flatMap_bytesOf_set (order : ByteOrder) {ws : List Word} {i : Nat} {w : Word} (hw : ws[i]? = some w) :
    ∃ pre post : List Byte, ws.flatMap (bytesOf order) = pre ++ bytesOf order w ++ post ∧
      ∀ w', (ws.set i w').flatMap (bytesOf order) = pre ++ bytesOf order w' ++ post := by
  obtain ⟨hi, rfl⟩ := List.getElem?_eq_some_iff.1 hw
  have hset := flatMap_set order hi
  exact ⟨_, _, by rw [← hset, List.set_getElem_self], hset⟩

/-- A change within one word moves the low sum by the sum of the byte changes. The high sum moves by a multiple of that
sum, less the changes weighted by their place in the word. -/
theorem adlerSums_set (order : ByteOrder) {ws : List Word} {i : Nat} {w w' : Word} (hw : ws[i]? = some w)
    {d0 d1 d2 d3 : Int} (h : ByteChange order w w' d0 d1 d2 d3) :
    ((adlerSums ((ws.set i w').flatMap (bytesOf order)) 1 0).1 : Int) ≡
      (adlerSums (ws.flatMap (bytesOf order)) 1 0).1 + (d0 + d1 + d2 + d3) [ZMOD 65521] ∧
    ∃ k : Int, ((adlerSums ((ws.set i w').flatMap (bytesOf order)) 1 0).2 : Int) ≡
      (adlerSums (ws.flatMap (bytesOf order)) 1 0).2 + (k * (d0 + d1 + d2 + d3) - (1 * d1 + 2 * d2 + 3 * d3))
        [ZMOD 65521] := by
  obtain ⟨x0, x1, x2, x3, y0, y1, y2, y3, hx, hy, h0, h1, h2, h3⟩ := h.bytes
  obtain ⟨pre, post, hold, hnew⟩ := flatMap_bytesOf_set order hw
  rw [hold, hnew, hx, hy]
  obtain ⟨hlow, hhigh⟩ := adlerSums_replace pre post x0 x1 x2 x3 y0 y1 y2 y3 h0 h1 h2 h3
  refine ⟨hlow, post.length + 4, ?_⟩
  convert hhigh using 2
  ring

/-- The byte changes of one word sum to 0 modulo 65521 only if they sum to 0: a byte moves by less than 256. -/
theorem ByteChange.sum_dvd_iff {order : ByteOrder} {w w' : Word} {d0 d1 d2 d3 : Int}
    (h : ByteChange order w w' d0 d1 d2 d3) : 65521 ∣ d0 + d1 + d2 + d3 ↔ d0 + d1 + d2 + d3 = 0 := by
  obtain ⟨x0, x1, x2, x3, y0, y1, y2, y3, -, -, h0, h1, h2, h3⟩ := h.bytes
  omega

/-- A sum that moves by `d` keeps its value iff the modulus divides `d`. -/
theorem modEq_iff_dvd_of_modEq_add {x a d n : Int} (h : x ≡ a + d [ZMOD n]) : x ≡ a [ZMOD n] ↔ n ∣ d := by
  rw [← Int.add_modEq_left_iff (a := a)]
  exact ⟨h.symm.trans, h.trans⟩

/-- What a change within one word leaves undetected (R203). -/
theorem checksum_set_eq_iff {c : Config} (hc : c.csum = .adler32) {ws : List Word} {i : Nat} {w w' : Word}
    (hw : ws[i]? = some w) {d0 d1 d2 d3 : Int} (h : ByteChange c.byteOrder w w' d0 d1 d2 d3) :
    checksum c (ws.set i w') = checksum c ws ↔
      d0 + d1 + d2 + d3 = 0 ∧ (1 * d1 + 2 * d2 + 3 * d3) % 65521 = 0 := by
  obtain ⟨hlow, k, hhigh⟩ := adlerSums_set c.byteOrder hw h
  rw [checksum_adler32 hc, checksum_adler32 hc, adler32_eq_iff_modEq, modEq_iff_dvd_of_modEq_add hlow,
    modEq_iff_dvd_of_modEq_add hhigh, h.sum_dvd_iff]
  refine and_congr_right fun hsum => ?_
  rw [hsum, mul_zero, zero_sub, dvd_neg, Int.dvd_iff_emod_eq_zero]

/-- A change of exactly one byte is detected (R203). -/
theorem checksum_set_ne_of_byte_set {c : Config} (hc : c.csum = .adler32) {ws : List Word} {i : Nat} {w w' : Word}
    (hw : ws[i]? = some w) {j : Nat} {x x' : Byte} (hx : (bytesOf c.byteOrder w)[j]? = some x) (hne : x ≠ x')
    (h : bytesOf c.byteOrder w' = (bytesOf c.byteOrder w).set j x') :
    checksum c (ws.set i w') ≠ checksum c ws := by
  obtain ⟨d0, d1, d2, d3, hd, hsum⟩ := byteChange_of_set hx h
  intro heq
  have hzero := ((checksum_set_eq_iff hc hw hd).1 heq).1
  exact hne (BitVec.eq_of_toNat_eq (by omega))

/-- A change of one byte moves the low half by the byte's change (R203). -/
theorem checksum_set_low_modEq {c : Config} (hc : c.csum = .adler32) {ws : List Word} {i : Nat} {w w' : Word}
    (hw : ws[i]? = some w) {j : Nat} {x x' : Byte} (hx : (bytesOf c.byteOrder w)[j]? = some x)
    (h : bytesOf c.byteOrder w' = (bytesOf c.byteOrder w).set j x') :
    (((checksum c (ws.set i w')).toNat % 65536 : Nat) : Int) ≡
      ((checksum c ws).toNat % 65536 : Nat) + ((x'.toNat : Int) - x.toNat) [ZMOD 65521] := by
  obtain ⟨d0, d1, d2, d3, hd, hsum⟩ := byteChange_of_set hx h
  rw [checksum_adler32 hc, checksum_adler32 hc, (adler32_halves _).2, (adler32_halves _).2, ← hsum]
  exact (adlerSums_set c.byteOrder hw hd).1

/-- Two values of one word that differ by an undetected change give the same checksum (R203). -/
theorem checksum_set_eq_of_byteChange {c : Config} (hc : c.csum = .adler32) {ws : List Word} {i : Nat}
    (hi : i < ws.length) {w w' : Word} {d0 d1 d2 d3 : Int} (h : ByteChange c.byteOrder w w' d0 d1 d2 d3)
    (hsum : d0 + d1 + d2 + d3 = 0) (hweighted : (1 * d1 + 2 * d2 + 3 * d3) % 65521 = 0) :
    checksum c (ws.set i w') = checksum c (ws.set i w) := by
  simpa using (checksum_set_eq_iff (ws := ws.set i w) hc (List.getElem?_set_self hi) h).2 ⟨hsum, hweighted⟩

/-- Settles O32: by `adlerSums_set`; the two examples change the bytes by amounts of sum 0 and weighted sum 0. -/
theorem defaultChecksumDetection : Obligations.DefaultChecksumDetection := by
  intro c ws i w w' hc hw
  have hi : i < ws.length := (List.getElem?_eq_some_iff.1 hw).1
  refine ⟨fun j x x' hx hne h => ⟨checksum_set_ne_of_byte_set hc hw hx hne h, ?_⟩,
    fun d0 d1 d2 d3 h => checksum_set_eq_iff hc hw h, ?_, ?_⟩
  · exact_mod_cast checksum_set_low_modEq hc hw hx h
  · cases horder : c.byteOrder with
    | le =>
      exact checksum_set_eq_of_byteChange hc hi (d0 := -1) (d1 := 2) (d2 := -1) (d3 := 0)
        (by rw [horder, ByteChange]; decide) rfl rfl
    | be =>
      exact checksum_set_eq_of_byteChange hc hi (d0 := 0) (d1 := -1) (d2 := 2) (d3 := -1)
        (by rw [horder, ByteChange]; decide) rfl rfl
  · exact checksum_set_eq_of_byteChange hc hi (d0 := -1) (d1 := 1) (d2 := 1) (d3 := -1)
      (by cases horder : c.byteOrder <;> (rw [ByteChange]; decide)) rfl rfl

end Sys2Proof.Machine
end

section
/-! The checksum commands (41_checksum.md R210 to R235) and the packet writes: what each leaves in the packet buffer. -/

namespace Sys2Proof.Machine

/-! ### PKT.CSUM -/

/-- The response after draws and the replacement of a packet buffer. -/
theorem setDraws_setPkt_respond (s : State) (d : Nat) (p : PktSel) (m : Memory) (st : Status) (ws : List Word) :
    (({ s with draws := d } : State).setPkt p m).respond st ws =
      { s.setPkt p m with output := s.output ++ statusCode st :: ws, draws := d } := by
  cases p <;> rfl

/-- Settles O33: the storage left is the old one with its last word written. -/
theorem csumWritesTheLastWord : Obligations.CsumWritesTheLastWord := by
  intro s p hl
  obtain ⟨ws, d, hread, he⟩ := exec_pktCsum hl p
  refine ⟨by cases p <;> rfl, ws, _, d, by rw [he, setDraws_setPkt_respond]; rfl, hread, ?_, fun i hi => ?_⟩
  · rw [read_write, if_pos rfl]
  · rw [read_write, if_neg hi]

/-! ### PKT.VERIFY and PKT.VFYP -/

/-- Settles O34: the response of the comparison, over a written packet and over any reading. -/
theorem verifyReportsValidity : Obligations.VerifyReportsValidity := by
  intro s p hl
  refine ⟨by cases p <;> rfl, fun ps hps => ?_, ?_⟩
  · rw [exec_pktVerify_holds hl hps, State.respond, (matchStatus_words _ _).1]
  · obtain ⟨ws, last, id, d, hread, hread', he, -⟩ := exec_pktVerify_vfyp hl p
    exact ⟨ws, last, id, d, hread, hread', by rw [he, State.respond, (matchStatus_words _ _).1]⟩

/-- Settles O35: as for PKT.VERIFY, with the flag of the opposite sense. -/
theorem vfypReportsTheErrorFlag : Obligations.VfypReportsTheErrorFlag := by
  intro s p hl
  refine ⟨by cases p <;> rfl, fun ps hps => ?_, ?_⟩
  · rw [exec_pktVfyp_holds hl hps, State.respond, (matchStatus_words _ _).2]
  · obtain ⟨ws, last, id, d, hread, hread', -, he⟩ := exec_pktVerify_vfyp hl p
    exact ⟨ws, last, id, d, hread, hread', by rw [he, State.respond, (matchStatus_words _ _).2]⟩

/-! ### A packet checksummed by PKT.CSUM -/

/-- Writing one more word behind the words held. -/
theorem Holds.write_length {m : Memory} {ws : List Word} (h : Holds m ws) (w : Word) :
    Holds (Memory.write m ws.length w) (ws ++ [w]) := by
  intro i hi
  rw [List.length_append, List.length_singleton] at hi
  rw [read_write]
  split
  · next heq => simp [heq]
  · next hne =>
    have hlt : i < ws.length := by omega
    rw [h i hlt, List.getElem?_append_left hlt]

theorem Holds.of_append {m : Memory} {ws vs : List Word} (h : Holds m (ws ++ vs)) : Holds m ws := fun i hi => by
  rw [h i (by rw [List.length_append]; omega), List.getElem?_append_left hi]

/-- PKT.CSUM of a packet whose words 0 to N-2 are written leaves a written packet, its checksum last. -/
theorem exec_pktCsum_pktHolds {s : State} {p : PktSel} {ws : List Word} (hl : s.cfg.Legal)
    (hn : ws.length = s.cfg.N - 1) (h : Holds (s.pkt p) ws) :
    ∃ t, exec (.pktCsum p) s = .next t ∧ t.cfg = s.cfg ∧ t.PktHolds p (ws ++ [checksum s.cfg ws]) := by
  have hN := hl.1
  refine ⟨_, exec_pktCsum_holds hl hn h, by simp, ?_, ?_⟩
  · rw [List.length_append, List.length_singleton, respond_cfg, setPkt_cfg]; omega
  · rw [respond_pkt, setPkt_pkt, if_pos rfl, ← hn]
    exact h.write_length _

theorem validPacket_append_checksum {c : Config} {ws : List Word} (hn : ws.length = c.N - 1) :
    validPacket c (ws ++ [checksum c ws]) := by
  simp [validPacket, ← hn]

/-- Settles O36: PKT.CSUM leaves a valid written packet, with the same identifier. -/
theorem csumThenVerifyIsOk : Obligations.CsumThenVerifyIsOk := by
  intro s p ws hl hn h
  obtain ⟨t, ht, hcfg, hps⟩ := exec_pktCsum_pktHolds hl hn h
  have hlt : t.cfg.Legal := hcfg ▸ hl
  have hvalid : validPacket t.cfg (ws ++ [checksum s.cfg ws]) := by
    rw [hcfg]; exact validPacket_append_checksum hn
  have hid : (ws ++ [checksum s.cfg ws]).getD 0 0 = ws.getD 0 0 :=
    List.getD_append _ _ _ _ (by have := hl.1; omega)
  refine ⟨t, ht, ?_, ?_⟩
  · rw [(verifyReportsValidity t p hlt).2.1 _ hps, if_pos hvalid, hid]
  · rw [(vfypReportsTheErrorFlag t p hlt).2.1 _ hps, if_pos hvalid, hid]

/-! ### Writing the same words again -/

theorem write_write {m : Memory} (h : Memory.wf m) (i : Nat) (w : Word) :
    Memory.write (Memory.write m i w) i w = Memory.write m i w := by
  refine memory_ext (write_wf (write_wf h _ _) _ _) (write_wf h _ _) fun j => ?_
  simp only [read_write]
  split <;> rfl

theorem packetWrite_packetWrite {m : Memory} (h : Memory.wf m) (n : Nat) (ws : List Word) :
    packetWrite n (packetWrite n m ws) ws = packetWrite n m ws := by
  refine memory_ext (writeAll_wf (writeAll_wf h _) _) (writeAll_wf h _) fun j => ?_
  simp only [read_packetWrite]
  split <;> rfl

/-- A write command that finds in its packet buffer what it writes there leaves it alone. -/
theorem setPkt_respond_self {t : State} {p : PktSel} {m : Memory} (h : t.pkt p = m) :
    (t.setPkt p m).respond .ok [] = { t with output := t.output ++ [0] } := by
  rw [← h, setPkt_self]; rfl

theorem pktWrite_twice {s t u : State} {p : PktSel} {ws : List Word} (hs : s.Inv)
    (ht : exec (.pktWrite p ws) s = .next t) (hu : exec (.pktWrite p ws) t = .next u) :
    u = { t with output := t.output ++ [0] } := by
  obtain rfl := Host.Outcome.next.inj (hu.symm.trans (exec_pktWrite (legal_of_next hu) p ws))
  obtain rfl := Host.Outcome.next.inj (ht.symm.trans (exec_pktWrite hs.legal p ws))
  refine setPkt_respond_self ?_
  simpa using (packetWrite_packetWrite (hs.pkt p).canonical _ ws).symm

theorem pktCsum_twice {s t u : State} {p : PktSel} {ws : List Word} (hs : s.Inv) (hn : ws.length = s.cfg.N - 1)
    (hws : Holds (s.pkt p) ws) (ht : exec (.pktCsum p) s = .next t) (hu : exec (.pktCsum p) t = .next u) :
    u = { t with output := t.output ++ [0] } := by
  obtain ⟨t', ht', hcfg, -, hps⟩ := exec_pktCsum_pktHolds hs.legal hn hws
  obtain rfl : t' = t := Host.Outcome.next.inj (ht'.symm.trans ht)
  obtain rfl := Host.Outcome.next.inj
    (hu.symm.trans (exec_pktCsum_holds (legal_of_next hu) (hcfg.symm ▸ hn) hps.of_append))
  refine setPkt_respond_self ?_
  obtain rfl := Host.Outcome.next.inj (ht.symm.trans (exec_pktCsum_holds hs.legal hn hws))
  simpa using (write_write (hs.pkt p).canonical _ _).symm

/-- Settles O37: the second command writes what the first left there. -/
theorem packetWritesAreIdempotent : Obligations.PacketWritesAreIdempotent := by
  rintro s t u p i ws hs (rfl | ⟨rfl, hn, hws⟩) ht hu
  · exact pktWrite_twice hs ht hu
  · exact pktCsum_twice hs hn hws ht hu

end Sys2Proof.Machine
end

section
/-! The packet framer (42_packet_framer.md R250 to R290): what PKT.WRITE and PKT.READ do with a packet, the packet
TX.BUILD constructs, the outcomes of RX.PARSE, and the three together. -/

namespace Sys2Proof.Machine

/-! ### PKT.WRITE and PKT.READ -/

theorem encode_pktWrite (p : PktSel) (ws : List Word) :
    encode (.pktWrite p ws) = (if p = .txp then 0x60000000 else 0x61000000) :: ws := by
  rw [encode, head_word_eq_ofNat, Instr.head]
  cases p <;> simp [Instr.operands, selOfPkt, Opcode.code]

/-- Settles O38: the storage left is the packet write, whose reads `packetWrite_holds` and `packetWrite_above` give. -/
theorem packetWriteStoresItsWords : Obligations.PacketWriteStoresItsWords := by
  intro s p ws hl hlen
  refine ⟨encode_pktWrite p ws, packetWrite s.cfg.N (s.pkt p) ws, ?_, packetWrite_holds _ hlen.le,
    fun i hi => packetWrite_above _ _ _ hi⟩
  rw [exec_pktWrite hl, State.respond, setPkt_output]; rfl

/-- Settles O39: the response is a reading of the N words, and of a written packet its words. -/
theorem packetReadReturnsItsWords : Obligations.PacketReadReturnsItsWords := by
  intro s p hl
  obtain ⟨ws, d, hread, he⟩ := exec_pktRead hl p
  exact ⟨by cases p <;> rfl, ⟨ws, d, he, hread⟩, fun _ hps => exec_pktRead_holds hl hps⟩

/-- PKT.WRITE of a whole packet leaves its packet buffer written, and the build and the RX ring as they were. -/
theorem exec_pktWrite_pktHolds {s : State} {p : PktSel} {ps : List Word} (hl : s.cfg.Legal) (hn : ps.length = s.cfg.N) :
    ∃ t, exec (.pktWrite p ps) s = .next t ∧ t.cfg = s.cfg ∧ t.rxRing = s.rxRing ∧ t.PktHolds p ps :=
  ⟨_, exec_pktWrite hl p ps, by simp, by simp, by simpa using hn, by simpa using packetWrite_holds (s.pkt p) hn.le⟩

/-! ### The packet TX.BUILD constructs -/

section buildPacket

variable {c : Config} {id : Word} {ws : List Word}

/-- A payload length fits in the length field. -/
theorem countWord_toNat_of_le {k : Nat} (h : k ≤ c.N - 3) : (countWord k).toNat = k :=
  countWord_toNat ((h.trans (Nat.sub_le _ _)).trans_lt c.packetWords.isLt)

theorem packetLength_buildPacket (h : ws.length ≤ c.N - 3) : packetLength (buildPacket c id ws) = ws.length :=
  countWord_toNat_of_le h

theorem validPacket_buildPacket (hl : c.Legal) (h : ws.length ≤ c.N - 3) : validPacket c (buildPacket c id ws) :=
  validPacket_append_checksum (packetBody_length id hl.1 h)

theorem rxPayload_buildPacket (h : ws.length ≤ c.N - 3) : rxPayload (buildPacket c id ws) = ws := by
  have hlen : ((buildPacket c id ws).getD 1 0).toNat = ws.length := packetLength_buildPacket h
  rw [rxPayload, hlen]
  simp [buildPacket, packetBody]

end buildPacket

theorem encode_txBuild (id : Word) : encode (.txBuild id) = [0xB0000000, id] := by
  rw [encode, head_word_eq_ofNat, Instr.head]
  simp [Instr.operands, Opcode.code]

/-- TX.BUILD takes the oldest words of the TX ring and leaves in TXP the packet built of them. -/
theorem exec_txBuild_pktHolds {s : State} (hl : s.cfg.Legal) (hr : RingInv s.cfg.cap s.txRing) (id : Word) :
    ∃ (ws : List Word) (t : State), exec (.txBuild id) s = .next t ∧ t.cfg = s.cfg ∧ t.rxRing = s.rxRing ∧
      ws.length = txCount s ∧ s.txRing.contents s.cfg.cap = ws.map some ++ t.txRing.contents s.cfg.cap ∧
      t.PktHolds .txp (buildPacket s.cfg id ws) := by
  obtain ⟨ws, hlen, hc, he⟩ := exec_txBuild hl hr id
  have hn := buildPacket_length id hl (hlen ▸ (txCount_le s).2)
  exact ⟨ws, _, he, rfl, rfl, hlen, hc, hn, packetWrite_holds _ hn.le⟩

/-- Settles O40: the words of the packet are those of `buildPacket_words`. -/
theorem txBuildConstructsThePacket : Obligations.TxBuildConstructsThePacket := by
  intro s id hl hr
  obtain ⟨ws, hlen, hc, he⟩ := exec_txBuild hl hr id
  obtain ⟨-, hmax⟩ := txCount_le s
  have hn := buildPacket_length id hl (hlen ▸ hmax)
  obtain ⟨hid, hL, hpayload, hpad, hcsum⟩ := buildPacket_words (id := id) hl (hlen ▸ hmax)
  rw [hlen] at hL hpayload hpad
  exact ⟨encode_txBuild id, txCount s, ws, buildPacket s.cfg id ws, _, _, rfl, he, rfl, hlen, hc, hn,
    packetWrite_holds _ hn.le, fun i hi => packetWrite_above _ _ _ hi, hid, hL, countWord_toNat_of_le hmax,
    hpayload, hpad, hcsum⟩

/-- Settles O41: the packet is valid because its last word is the checksum of the others, whatever CSUM is. -/
theorem builtPacketIsValid : Obligations.BuiltPacketIsValid := by
  intro s id hl hr
  obtain ⟨ws, t, he, hcfg, -, hlen, hc, hps⟩ := exec_txBuild_pktHolds hl hr id
  have hmax : ws.length ≤ s.cfg.N - 3 := hlen ▸ (txCount_le s).2
  have hL : packetLength (buildPacket s.cfg id ws) = txCount s := (packetLength_buildPacket hmax).trans hlen
  obtain ⟨-, -, -, hpad, -⟩ := buildPacket_words (id := id) hl hmax
  have hvalid : validPacket t.cfg (buildPacket s.cfg id ws) := hcfg.symm ▸ validPacket_buildPacket hl hmax
  have hlt : t.cfg.Legal := hcfg.symm ▸ hl
  obtain ⟨-, hverify, -⟩ := verifyReportsValidity t .txp hlt
  obtain ⟨-, hvfyp, -⟩ := vfypReportsTheErrorFlag t .txp hlt
  refine ⟨t, buildPacket s.cfg id ws, he, hps, ?_, hL, hL ▸ (txCount_le s).2, ?_, ?_, ?_⟩
  · rw [hc, List.drop_left' (by simpa [txCount] using hlen)]
  · rwa [hL, ← hlen]
  · rw [hverify _ hps, if_pos hvalid]; rfl
  · rw [hvfyp _ hps, if_pos hvalid]; rfl

/-! ### The verdict of RX.PARSE (R281) -/

section verdict

variable {c : Config} {free : Nat} {ps ps' : List Word}

theorem rxVerdict_of_invalid (h : ¬ validPacket c ps) : rxVerdict c free ps = .csumMismatch := if_pos h

theorem rxVerdict_of_long (hv : validPacket c ps) (h : c.N - 3 < packetLength ps) :
    rxVerdict c free ps = .malformedLength := by
  rw [rxVerdict, if_neg (not_not.2 hv), if_pos h]

theorem rxVerdict_of_full (hv : validPacket c ps) (hL : packetLength ps ≤ c.N - 3) (h : free < packetLength ps) :
    rxVerdict c free ps = .overflow := by
  rw [rxVerdict, if_neg (not_not.2 hv), if_neg (not_lt.2 hL), if_pos h]

theorem rxVerdict_of_fits (hv : validPacket c ps) (hL : packetLength ps ≤ c.N - 3) (h : packetLength ps ≤ free) :
    rxVerdict c free ps = .ok := by
  rw [rxVerdict, if_neg (not_not.2 hv), if_neg (not_lt.2 hL), if_neg (not_lt.2 h)]

/-- Of valid packets the verdict depends on the length field alone. -/
theorem rxVerdict_congr (hv : validPacket c ps) (hv' : validPacket c ps') (hL : packetLength ps = packetLength ps') :
    rxVerdict c free ps = rxVerdict c free ps' := by
  rw [rxVerdict, rxVerdict, if_neg (not_not.2 hv), if_neg (not_not.2 hv')]
  simp only [hL]

end verdict

/-! ### The outcomes of RX.PARSE (R280) -/

/-- Where RX.PARSE leads from `s` when it reads the packet `ps`. -/
def State.parsed (s : State) (ps : List Word) : State :=
  (s.setRing .rx
    (if rxVerdict s.cfg (s.rxRing.free s.cfg.cap) ps = .ok
      then s.rxRing.append s.cfg.cap (rxPayload ps) else s.rxRing)).respond
    (rxVerdict s.cfg (s.rxRing.free s.cfg.cap) ps) [successFlag (rxVerdict s.cfg (s.rxRing.free s.cfg.cap) ps)]

theorem exec_rxParse_parsed {s : State} (hl : s.cfg.Legal) :
    ∃ ps d, Reads s.rxp (List.range s.cfg.N) ps ∧
      exec .rxParse s = .next (({ s with draws := d } : State).parsed ps) := by
  obtain ⟨ps, d, hread, -, -, he⟩ := exec_rxParse hl
  exact ⟨ps, d, hread, he⟩

theorem exec_rxParse_parsed_of_holds {s : State} {ps : List Word} (hl : s.cfg.Legal) (h : s.PktHolds .rxp ps) :
    exec .rxParse s = .next (s.parsed ps) := exec_rxParse_holds hl h

section parsed

variable {s : State} {ps : List Word}

/-- A rejected packet leaves the RX ring alone. -/
theorem parsed_of_ne_ok (h : rxVerdict s.cfg (s.rxRing.free s.cfg.cap) ps ≠ .ok) :
    s.parsed ps = { s with output := s.output ++ [statusCode (rxVerdict s.cfg (s.rxRing.free s.cfg.cap) ps), 0] } := by
  rw [State.parsed, if_neg h, successFlag, if_neg h]; rfl

/-- An accepted packet has its payload appended to the RX ring. -/
theorem parsed_of_ok (h : rxVerdict s.cfg (s.rxRing.free s.cfg.cap) ps = .ok) :
    s.parsed ps = { s with
      rxRing := s.rxRing.append s.cfg.cap (rxPayload ps), output := s.output ++ [0, 1] } := by
  rw [State.parsed, h]; rfl

theorem parsed_of_invalid (h : ¬ validPacket s.cfg ps) : s.parsed ps = { s with output := s.output ++ [1, 0] } := by
  have hv := rxVerdict_of_invalid (free := s.rxRing.free s.cfg.cap) h
  rw [parsed_of_ne_ok (by rw [hv]; decide), hv]; rfl

theorem parsed_of_long (h : validPacket s.cfg ps) (hL : s.cfg.N - 3 < packetLength ps) :
    s.parsed ps = { s with output := s.output ++ [4, 0] } := by
  have hv := rxVerdict_of_long (free := s.rxRing.free s.cfg.cap) h hL
  rw [parsed_of_ne_ok (by rw [hv]; decide), hv]; rfl

theorem parsed_of_full (h : validPacket s.cfg ps) (hL : packetLength ps ≤ s.cfg.N - 3)
    (hfull : s.rxRing.free s.cfg.cap < packetLength ps) : s.parsed ps = { s with output := s.output ++ [2, 0] } := by
  have hv := rxVerdict_of_full h hL hfull
  rw [parsed_of_ne_ok (by rw [hv]; decide), hv]; rfl

theorem parsed_of_fits (h : validPacket s.cfg ps) (hL : packetLength ps ≤ s.cfg.N - 3)
    (hfit : packetLength ps ≤ s.rxRing.free s.cfg.cap) :
    s.parsed ps = { s with
      rxRing := s.rxRing.append s.cfg.cap (rxPayload ps), output := s.output ++ [0, 1] } :=
  parsed_of_ok (rxVerdict_of_fits h hL hfit)

/-- An `OK` response shows that the verdict was `OK`. -/
theorem rxVerdict_eq_ok_of_parsed_output (h : (s.parsed ps).output = s.output ++ [0, 1]) :
    rxVerdict s.cfg (s.rxRing.free s.cfg.cap) ps = .ok := status_eq_ok h

end parsed

/-- The payload of a packet, word by word. -/
theorem rxPayload_getElem? {ps : List Word} {j : Nat} (hj : j < packetLength ps) : (rxPayload ps)[j]? = ps[2 + j]? := by
  rw [rxPayload, List.getElem?_take_of_lt hj, List.getElem?_drop]

/-- Settles O42: the three failing outcomes leave the ring, and an accepted payload extends its contents. -/
theorem rxParseChecksInOrder : Obligations.RxParseChecksInOrder := by
  intro s ps hl hr hps
  rw [exec_rxParse_parsed_of_holds hl hps]
  refine ⟨rfl, fun hv => by rw [parsed_of_invalid hv], fun hv hL => by rw [parsed_of_long hv hL],
    fun hv hL hfull => by rw [parsed_of_full hv hL hfull], fun hv hL hfit => ?_⟩
  have hlen := rxPayload_length hps.1 hl hL
  refine ⟨rxPayload ps, s.rxRing.append s.cfg.cap (rxPayload ps), hlen, fun j => rxPayload_getElem?,
    by rw [parsed_of_fits hv hL hfit], rfl, ?_, ?_,
    append_contents_of_le_free hr (hlen.trans_le hfit)⟩
  · rw [append_tail, hlen]
  · rw [append_count, hlen]

/-- Settles O43: the four outcomes on the reading RX.PARSE makes. -/
theorem rxParseIsAtomic : Obligations.RxParseIsAtomic := by
  intro s hl
  obtain ⟨ps, d, hread, he⟩ := exec_rxParse_parsed hl
  exact ⟨_, ps, d, he, hread, parsed_of_invalid (s := { s with draws := d }),
    parsed_of_long (s := { s with draws := d }), parsed_of_full (s := { s with draws := d }),
    fun hv hL hfit => by rw [parsed_of_fits (s := { s with draws := d }) hv hL hfit]⟩

/-- Settles O44: the accepted payload stands at the end of the contents, and the consume takes them all. -/
theorem parsedPayloadIsReplayedInOrder : Obligations.ParsedPayloadIsReplayedInOrder := by
  intro s t ps old cnt hl hr hps hold he hout hcnt
  obtain rfl := Host.Outcome.next.inj (he.symm.trans (exec_rxParse_parsed_of_holds hl hps))
  have hv := rxVerdict_eq_ok_of_parsed_output hout
  have hfit := rxPayload_length_le_free hv
  rw [parsed_of_ok hv] at hcnt ⊢
  have hr' := append_inv_of_le_free hl.2.1 hfit hr
  have hc := append_contents_of_le_free hr hfit
  rw [hold, ← List.map_append] at hc
  have hlen : (old ++ rxPayload ps).length = cnt.toNat := by
    rw [hcnt, ← contents_length (cap := s.cfg.cap), hc, List.length_map]
  refine ⟨_, exec_rbConsume_words (b := .rx) (rest := []) hl hr' hlen (by simpa using hc), rfl, ?_⟩
  exact (drop_contents hcnt.le).trans (List.drop_eq_nil_of_le (contents_length.trans hcnt.symm).le)

/-! ### Padding (R282) -/

/-- Packets that agree up to the end of the payload have the same length field. -/
theorem packetLength_congr {ps ps' : List Word} (h : ps.take (2 + packetLength ps) = ps'.take (2 + packetLength ps)) :
    packetLength ps = packetLength ps' := by
  have h1 : ps[1]? = ps'[1]? := by
    rw [← List.getElem?_take_of_lt (show 1 < 2 + packetLength ps by omega), h, List.getElem?_take_of_lt (by omega)]
  rw [packetLength, packetLength, List.getD_eq_getElem?_getD, h1, List.getD_eq_getElem?_getD]

theorem rxPayload_eq_drop_take (ps : List Word) : rxPayload ps = (ps.take (2 + packetLength ps)).drop 2 := by
  rw [List.drop_take, Nat.add_sub_cancel_left]; rfl

/-- Settles O45: the verdict on a valid packet and its payload depend on the words before the padding alone. -/
theorem paddingIsIgnored : Obligations.PaddingIsIgnored := by
  intro s s' t t' ps ps' hl hps hps' hs' hv hv' htake he he'
  have hL := packetLength_congr htake
  have hpayload : rxPayload ps = rxPayload ps' := by
    rw [rxPayload_eq_drop_take, rxPayload_eq_drop_take, htake, hL]
  generalize s'.rxp = m at hs'
  subst hs'
  obtain rfl := Host.Outcome.next.inj (he.symm.trans (exec_rxParse_parsed_of_holds hl hps))
  obtain rfl := Host.Outcome.next.inj (he'.symm.trans (exec_rxParse_parsed_of_holds hl hps'))
  have hverdict := rxVerdict_congr (free := s.rxRing.free s.cfg.cap) hv hv' hL
  refine ⟨?_, ?_, fun hmax hfit => by rw [parsed_of_fits hv hmax hfit]⟩
  · simp [State.parsed, hverdict]
  · simp [State.parsed, hverdict, hpayload]

/-! ### Loopback (R290) -/

/-- RX.PARSE of a constructed packet appends its payload if it fits, and answers OVERFLOW otherwise. -/
theorem parsed_buildPacket {s : State} {id : Word} {ws : List Word} (hl : s.cfg.Legal) (hr : RingInv s.cfg.cap s.rxRing)
    (h : ws.length ≤ s.cfg.N - 3) :
    (ws.length ≤ s.rxRing.free s.cfg.cap →
      (s.parsed (buildPacket s.cfg id ws)).output = s.output ++ [0, 1] ∧
      (s.parsed (buildPacket s.cfg id ws)).rxRing.contents s.cfg.cap =
        s.rxRing.contents s.cfg.cap ++ ws.map some) ∧
    (s.rxRing.free s.cfg.cap < ws.length →
      (s.parsed (buildPacket s.cfg id ws)).output = s.output ++ [2, 0] ∧
      (s.parsed (buildPacket s.cfg id ws)).rxRing = s.rxRing) := by
  have hvalid : validPacket s.cfg (buildPacket s.cfg id ws) := validPacket_buildPacket hl h
  have hL : packetLength (buildPacket s.cfg id ws) = ws.length := packetLength_buildPacket h
  constructor
  · intro hfit
    rw [parsed_of_fits hvalid (hL.trans_le h) (hL.trans_le hfit), rxPayload_buildPacket h]
    exact ⟨rfl, append_contents_of_le_free hr hfit⟩
  · intro hfull
    rw [parsed_of_full hvalid (hL.trans_le h) (hfull.trans_eq hL.symm)]
    exact ⟨rfl, rfl⟩

/-- Settles O47: the packet built is valid and of legal length, the copy holds the same words, and so RX.PARSE appends
its payload, the words TX.BUILD took, if they fit. -/
theorem loopbackDeliversThePayload : Obligations.LoopbackDeliversThePayload := by
  intro s id hs
  obtain ⟨ws, t, ht, hcfg, hring, hlen, hc, hps⟩ := exec_txBuild_pktHolds hs.legal (hs.ring .tx) id
  have hmax : ws.length ≤ s.cfg.N - 3 := hlen ▸ (txCount_le s).2
  have hn := buildPacket_length id hs.legal hmax
  have hlt : t.cfg.Legal := hcfg.symm ▸ hs.legal
  obtain ⟨v, hv, hcfg', hring', hps'⟩ := exec_pktWrite_pktHolds (s := t.respond .ok (buildPacket s.cfg id ws))
    (p := .rxp) hlt (hn.trans (congrArg Config.N hcfg.symm))
  rw [respond_cfg, hcfg] at hcfg'
  rw [respond_rxRing, hring] at hring'
  have hlv : v.cfg.Legal := hcfg'.symm ▸ hs.legal
  have hparse := parsed_buildPacket (s := v) (id := id) (ws := ws) hlv
    (by rw [hcfg', hring']; exact hs.ring .rx) (hcfg'.symm ▸ hmax)
  rw [hcfg', hring'] at hparse
  exact ⟨ws.length, ws, _, t, _, v, _, hlen, rfl, ht, hc, exec_pktRead_holds hlt hps, rfl, hn, hv,
    exec_rxParse_parsed_of_holds hlv hps', hparse⟩

end Sys2Proof.Machine
end

section
/-! The system commands (43_system.md R300, R305): CFG, and the answer to an illegal command word. -/

namespace Sys2Proof.Machine

/-- Settles O3: `step_illegalWord`, with the response `ILLEGAL` as its code 5. -/
theorem illegalWordAnswersIllegal : Obligations.IllegalWordAnswersIllegal :=
  fun _ _ _ hl hin hcw => step_illegalWord hl hcw hin

/-- Settles O49: in a legal build CAP fits in a response word, and N is one. -/
theorem cfgReportsTheBuild : Obligations.CfgReportsTheBuild := by
  intro s hl
  have ⟨_, _, hcap⟩ := hl
  exact ⟨rfl, countWord s.cfg.cap, s.cfg.packetWords, exec_cfg hl, countWord_toNat hcap, rfl⟩

end Sys2Proof.Machine
end

section
/-! The illegal configuration (60_exceptions.md R350; 10_state.md R8): neither a command nor a step has a meaning in it. -/

namespace Sys2Proof.Machine

theorem execIllegal_illegalConfig {s : State} (h : ¬ s.cfg.Legal) (why : IllegalReason) :
    execIllegal why s = .refused .illegalConfig := commit_illegal h _

/-- In an illegal configuration each outcome of the fetch leads to the same refusal: taking words from `In` keeps the
configuration, and a hold checks it too. -/
theorem step_illegalConfig {s : State} (h : ¬ s.cfg.Legal) : step s = .refused .illegalConfig := by
  cases hf : fetch s with
  | command i rest => exact (step_command hf).trans (exec_illegalConfig (s := s.takeInput rest) h i)
  | illegal why rest => exact (step_illegal hf).trans (execIllegal_illegalConfig (s := s.takeInput rest) h why)
  | incomplete => exact (step_incomplete hf).trans (hold_illegal h _)
  | idle => exact (step_idle hf).trans (hold_illegal h _)

/-- Settles O2: `step_illegalConfig` for a step, and `exec_illegalConfig` for a command executed on its own. -/
theorem illegalConfigurationRefused : Obligations.IllegalConfigurationRefused :=
  fun i _ h => ⟨step_illegalConfig h, exec_illegalConfig h i⟩

end Sys2Proof.Machine
end

section
/-! Reset and the retry after backpressure (70_reset_and_hazards.md R360, R376). -/

namespace Sys2Proof.Machine

/-! ### Making room (R376) -/

/-- Taking words that are there frees as many slots. -/
theorem drop_free {cap k : Nat} {r : Ring} (hr : RingInv cap r) (h : k ≤ r.count) :
    (r.drop cap k).free cap = r.free cap + k := by
  have hfull := count_add_free hr
  have hrest := count_add_free (drop_inv hr h)
  rw [drop_count] at hrest
  omega

/-- An RB.CONSUME of words that are there frees as many slots, and leaves the build and the packet buffers alone. -/
theorem exec_rbConsume_makesRoom {s : State} {b : RingSel} {cnt : BitVec 16} (hl : s.cfg.Legal)
    (hr : RingInv s.cfg.cap (s.ring b)) (h : cnt.toNat ≤ (s.ring b).count) :
    ∃ u, exec (.rbConsume b cnt) s = .next u ∧ u.cfg = s.cfg ∧ (∀ p, u.pkt p = s.pkt p) ∧
      (u.ring b).free u.cfg.cap = (s.ring b).free s.cfg.cap + cnt.toNat := by
  obtain ⟨ws, -, -, he⟩ := exec_rbConsume_fits hl hr h
  exact ⟨_, he, by simp, by simp, by simpa using drop_free hr h⟩

/-- An RX.PARSE is turned away for want of room only with a valid packet of legal length. -/
theorem valid_of_rxVerdict_overflow {c : Config} {free : Nat} {ps : List Word} (h : rxVerdict c free ps = .overflow) :
    validPacket c ps ∧ packetLength ps ≤ c.N - 3 := by
  obtain ⟨-, hv⟩ | ⟨-, -, hv⟩ | ⟨hvalid, hL, -, -⟩ | ⟨-, -, -, hv⟩ := rxVerdict_cases c free ps
  · simp [hv] at h
  · simp [hv] at h
  · exact ⟨hvalid, hL⟩
  · simp [hv] at h

/-! ### The command sent again (R376) -/

/-- A valid packet of legal length that `PKT[1]` holds is accepted once RB.CONSUME has made room for its payload. -/
theorem rxParse_ok_after_rbConsume {s : State} {ps : List Word} {cnt : BitVec 16} (hl : s.cfg.Legal)
    (hr : RingInv s.cfg.cap s.rxRing) (hps : s.PktHolds .rxp ps) (hvalid : validPacket s.cfg ps)
    (hL : packetLength ps ≤ s.cfg.N - 3) (hc : cnt.toNat ≤ s.rxRing.count)
    (hroom : packetLength ps ≤ s.rxRing.free s.cfg.cap + cnt.toNat) :
    ∃ u v, exec (.rbConsume .rx cnt) s = .next u ∧ exec .rxParse u = .next v ∧ v.output = u.output ++ [0, 1] := by
  obtain ⟨u, hu, hcfg, hpkt, hfree⟩ := exec_rbConsume_makesRoom (b := .rx) hl hr hc
  have hpsu : u.PktHolds .rxp ps := by simpa only [State.PktHolds, hcfg, hpkt] using hps
  rw [← hcfg] at hl hvalid hL
  exact ⟨u, _, hu, exec_rxParse_parsed_of_holds hl hpsu,
    by rw [parsed_of_fits hvalid hL (hroom.trans_eq hfree.symm)]⟩

/-- Words are accepted by a ring once RB.CONSUME has made room for them. -/
theorem rbAppend_ok_after_rbConsume {s : State} {b : RingSel} {ws : List Word} {cnt : BitVec 16} (hl : s.cfg.Legal)
    (hr : RingInv s.cfg.cap (s.ring b)) (hc : cnt.toNat ≤ (s.ring b).count)
    (hroom : ws.length ≤ (s.ring b).free s.cfg.cap + cnt.toNat) :
    ∃ u v, exec (.rbConsume b cnt) s = .next u ∧ exec (.rbAppend b ws) u = .next v ∧ v.output = u.output ++ [0] := by
  obtain ⟨u, hu, hcfg, -, hfree⟩ := exec_rbConsume_makesRoom hl hr hc
  exact ⟨u, _, hu, exec_rbAppend_fits (hcfg.symm ▸ hl) (hroom.trans_eq hfree.symm), by simp [statusCode]⟩

/-- Settles O48: OVERFLOW changes `Out` alone, so the words that RB.CONSUME takes next are all the command lacked. -/
theorem retryAfterBackpressureSucceeds : Obligations.RetryAfterBackpressureSucceeds := by
  refine ⟨rfl, fun s t ps cnt hl hr hps he hout => ?_, fun s t b ws cnt hl hr he hout => ?_⟩
  · obtain rfl := Host.Outcome.next.inj (he.symm.trans (exec_rxParse_parsed_of_holds hl hps))
    have hv : rxVerdict s.cfg (s.rxRing.free s.cfg.cap) ps = .overflow := (response_inj (b := .overflow) hout).1
    obtain ⟨hvalid, hL⟩ := valid_of_rxVerdict_overflow hv
    have ht : s.parsed ps = { s with output := s.output ++ [2, 0] } := by
      rw [parsed_of_ne_ok (by rw [hv]; decide), hv]; rfl
    rw [ht]
    exact ⟨rfl, rxParse_ok_after_rbConsume (s := s.respond .overflow [0]) hl hr (hps.setOutput _) hvalid hL⟩
  · obtain ⟨-, rfl⟩ | ⟨-, rfl⟩ := rbAppend_cases he
    · rw [respond_output, setRing_output] at hout
      exact absurd (response_inj (b := .overflow) hout).1 (by decide)
    · rw [← respond_ring s b .overflow []] at hr ⊢
      exact ⟨rfl, rbAppend_ok_after_rbConsume (s := s.respond .overflow []) hl hr⟩

/-! ### Reset (R360) -/

/-- Settles O11: the empty input stream is a hold, and after a send the step decodes the words sent. -/
theorem resetLeavesEmptyCore : Obligations.ResetLeavesEmptyCore := by
  refine ⟨fun c b p => ?_, fun c i rest hwf => ?_, fun s => ⟨s.draws, rfl⟩⟩
  · have hring : (State.resetWith c).ring b = Ring.empty := by cases b <;> rfl
    have hpkt : (State.resetWith c).pkt p = [] := by cases p <;> rfl
    rw [hring, hpkt]
    exact ⟨rfl, rfl, rfl, read_nil, rfl, rfl, rfl, fun hl => (finished_of_input_nil hl rfl).2⟩
  · exact step_encode hwf rfl

/-- Settles O12: by `resetWith_inv`, from the empty rings and the unwritten packet buffers. -/
theorem resetMeetsTheInvariant : Obligations.ResetMeetsTheInvariant :=
  fun _ hc => resetWith_inv hc

end Sys2Proof.Machine
end
